-- ==== Sys2Proof/Word.lean ====
section
/-! DEFINITION. The words the block's port and buffers hold (spec/00_scope.md R8; spec/10_state.md R36, R43, R45). Values the block computes on are natural numbers (R8); only what a register or a buffer holds is a bit vector. -/

namespace Sys2Proof

/-- One byte of a key or tweak string, or an 8-bit immediate (R8, R100). -/
abbrev Byte := BitVec 8

/-- One 32-bit register of the window, or a command word (R36, R100). -/
abbrev Word := BitVec 32

/-- A `W`-bit operand or result register, `W = 256` (R6, R45, R46). -/
abbrev Wide := BitVec 256

/-- An offset within the 4 KiB register window: 12 bits (spec/20_memory.md R70). -/
abbrev Offset := BitVec 12

end Sys2Proof
end

