-- ==== Sys2Proof/Config.lean ====
section
/-! DEFINITION. What an implementation fixes: the parameters of spec/00_scope.md R6 under the constraints of R7. The OPEN ones are constants without a body (log entry 1), so no proof can see their values; the constraints hold by the way `Config.params` is put together. -/

namespace Sys2Proof

/-- `W`, the width in bits of every operand and result register (R6). -/
abbrev Config.width : Nat := 256

/-- `D_MAX`, the largest legal `a_digits + b_digits` (R6). -/
abbrev Config.digitsMax : Nat := 77

/-- `KEY_MAX`, the capacity of the key staging buffer in bytes (R6). -/
abbrev Config.keyMax : Nat := 64

/-- `TWEAK_MAX`, the capacity of the tweak staging buffer in bytes (R6). -/
abbrev Config.tweakMax : Nat := 64

/-- A round function `RF(key, tweak, i, x)` (R6, spec/41_feistel_cipher.md R172). -/
abbrev RoundFn := List Byte → List Byte → Nat → Nat → Nat

/-- The OPEN parameters of the block (R6). The engine's functions take them as an argument, so a law of
spec/41_feistel_cipher.md can be said of every round function. -/
structure Params where
  /-- `RF`, the round function -/
  rf : RoundFn
  /-- `RF_KEY_OK`, the keys that are well-formed for the round function -/
  rfKeyOk : List Byte → Bool
  /-- `W_F`, the output width of `RF` in bits -/
  roundWidth : Nat
  /-- `CW_LIMIT`, the most transform applications one cycle-walk may make -/
  walkLimit : Nat
  /-- `FFX_BASE`, the bus address of the register window -/
  ffxBase : Nat

/-- The constraints of R7 (with R172's output width and R70's 4 KiB alignment). -/
structure Params.Wf (p : Params) : Prop where
  rf_lt : ∀ key tweak i x, p.rf key tweak i x < 2 ^ p.roundWidth
  empty_key : p.rfKeyOk [] = false
  limit_pos : 1 ≤ p.walkLimit
  limit_le : p.walkLimit ≤ 2 ^ 32 - 1
  base_aligned : p.ffxBase % 4096 = 0

/-- OPEN (93_implementation_defined.md I1): the round function's integer, before it is cut to `W_F` bits. -/
opaque Config.roundFree : List Byte → List Byte → Nat → Nat → Nat

/-- OPEN (I2): which non-empty keys the round function accepts. -/
opaque Config.keyOkFree : List Byte → Bool

/-- OPEN (I3): the round function's output width in bits. -/
opaque Config.roundWidth : Nat

/-- OPEN (I4): the cycle-walk guard less one; every guard of `1 .. 2^32 - 1` is possible. -/
opaque Config.walkLimitFree : Fin (4294967294 + 1)

/-- OPEN (I9): the 4 KiB page of the bus at which the platform places the register window. -/
opaque Config.ffxPage : Nat

/-- The block's parameters: any values that R6 and R7 allow, and no others. -/
def Config.params : Params where
  rf key tweak i x := Config.roundFree key tweak i x % 2 ^ Config.roundWidth
  rfKeyOk key := !key.isEmpty && Config.keyOkFree key
  roundWidth := Config.roundWidth
  walkLimit := Config.walkLimitFree.val + 1
  ffxBase := 4096 * Config.ffxPage

end Sys2Proof
end

