-- ==== Sys2Proof/Machine/State.lean ====
section
/-! DEFINITION. The state of the block: the record S of spec/10_state.md R30, with two fields of the model's own for the port's order and the values its reads return (log entries 2, 3). All of it is plain data. -/

namespace Sys2Proof.Machine

/-- Why a step faults. -/
inductive Fault where
  /-- A read of STATUS found one of the reserved ERR codes 6 to 15. Raised by the port's read. The spec treats
  reaching it as a broken invariant (spec/93_implementation_defined.md I17; 60_exceptions.md R210). Safe: no
  command writes such a code. -/
  | reservedErrCode
  deriving DecidableEq, Repr

/-- Why a step has no meaning. -/
inductive Refusal where
  /-- An instruction without a meaning; no arm uses it. Raised by `exec` alone. Safe. -/
  | notModelled (mnemonic : String)
  /-- An access that is not a single aligned 32-bit read or write. Raised by the port (spec/20_memory.md R72;
  93_implementation_defined.md I10: refuse). Safe. -/
  | accessNotAdmitted
  /-- An access that reaches the port while reset is applied. Raised by the port (spec/70_reset_and_hazards.md R250;
  93_implementation_defined.md I11: refuse). Safe. -/
  | accessDuringReset
  deriving DecidableEq, Repr

/-- The configured domain `(ad, bd)` (R30, R31). The digit counts are what CONFIG shows, 8 bits each (R39). -/
structure Domain where
  aDigits : Byte
  bDigits : Byte
  deriving DecidableEq, Repr

/-- The installed CipherContext (R33). -/
structure CipherContext where
  key : List Byte
  tweak : List Byte
  rounds : Byte
  /-- the split radix, a natural number (spec/00_scope.md R8) -/
  r : Nat
  deriving DecidableEq, Repr

/-- What a host access does. -/
inductive AccessKind where
  | read
  | write (value : Word)
  deriving DecidableEq, Repr

/-- A host access as it reaches the port: the low 12 address bits (spec/20_memory.md R70), the width of a beat in
bytes and the number of beats. R72 admits one beat of four bytes at a multiple of four, and no other access. -/
structure Access where
  kind : AccessKind
  off : Offset
  bytes : Nat
  beats : Nat
  deriving DecidableEq, Repr

/-- One turn in the port's total order (spec/20_memory.md R79; the agents are those of 00_scope.md R12). -/
inductive PortEvent where
  /-- a host's access -/
  | access (a : Access)
  /-- the engine's turn: it completes the pending command if there is one (spec/40_domain_encoder.md R131) -/
  | engine
  /-- reset is applied, in one atomic step (spec/70_reset_and_hazards.md R250) -/
  | reset
  /-- an access while reset is applied, which the platform must not issue (R250) -/
  | accessInReset (a : Access)
  deriving DecidableEq, Repr

/-- What one read returned to the host (spec/20_memory.md R75). -/
structure ReadReply where
  off : Offset
  value : Word
  deriving DecidableEq, Repr

/-- The state of the block (R30), and the port's order and replies. -/
structure State where
  /-- S.busy: a command is issued and not yet completed -/
  busy : Bool
  /-- S.pend: the issued command word -/
  pend : Word
  /-- S.err: the status code of the last completed command -/
  err : BitVec 4
  /-- S.dom: the configured domain -/
  dom : Option Domain
  /-- S.ctx: the installed CipherContext -/
  ctx : Option CipherContext
  /-- S.cw: the walk count of the last successful ENCODE or DECODE -/
  cw : Word
  /-- S.key_len -/
  keyLen : BitVec 7
  /-- S.tweak_len -/
  tweakLen : BitVec 7
  /-- S.key_stage -/
  keyStage : Vector Byte 64
  /-- S.tweak_stage -/
  tweakStage : Vector Byte 64
  /-- S.a_in -/
  aIn : Wide
  /-- S.b_in -/
  bIn : Wide
  /-- S.c_in -/
  cIn : Wide
  /-- S.a_out -/
  aOut : Wide
  /-- S.b_out -/
  bOut : Wide
  /-- S.c_out -/
  cOut : Wide
  /-- the port's total order still to come, oldest first (R79; log entry 2) -/
  order : List PortEvent
  /-- what the port's reads have returned, newest first (R75; log entry 3) -/
  replies : List ReadReply
  deriving DecidableEq, Repr

/-- The machine right after reset (R50). Nothing has reached the port yet (log entries 2, 3, 5). -/
def State.reset : State where
  busy := false
  pend := 0
  err := 0
  dom := none
  ctx := none
  cw := 0
  keyLen := 0
  tweakLen := 0
  keyStage := Vector.replicate 64 0
  tweakStage := Vector.replicate 64 0
  aIn := 0
  bIn := 0
  cIn := 0
  aOut := 0
  bOut := 0
  cOut := 0
  order := []
  replies := []

/-- The answer of a step. -/
abbrev Result := Host.Outcome State Fault Refusal

end Sys2Proof.Machine
end

