-- ==== Sys2Proof/Machine/Ops.lean ====
section
/-! DEFINITION. The operations every command shares: how a command ends (spec/60_exceptions.md R217, R218), the domain precondition (spec/40_domain_encoder.md R132), and the exact arithmetic of spec/00_scope.md R9 and R10. The block has no trap and no return from one (R219, R220): ending with an error code is its whole exception. -/

namespace Sys2Proof.Machine

/-- The status codes of R210. -/
inductive ErrCode where
  | ok
  | invalidDomain
  | invalidKey
  | outOfRange
  | internalError
  | illegalCommand
  deriving DecidableEq, Repr

/-- The numbers of R210. -/
def ErrCode.toBits : ErrCode → BitVec 4
  | .ok => 0
  | .invalidDomain => 1
  | .invalidKey => 2
  | .outOfRange => 3
  | .internalError => 4
  | .illegalCommand => 5

/-- The end of a command: its code in S.err, and S.busy cleared (R131, R217, R218). -/
def State.finish (s : State) (e : ErrCode) : State := { s with err := e.toBits, busy := false }

/-- `raise Error(code)` (R217): exactly `S.err <- code; S.busy <- false`. -/
def raiseError (e : ErrCode) (s : State) : Result := .next (s.finish e)

/-- `complete OK` (R218), on the state that has the command's writes: `S.err <- 0; S.busy <- false`. -/
def completeOk (s : State) : Result := .next (s.finish .ok)

/-- `require_domain()` (R132): InvalidDomain when no domain is configured, else the command goes on with it. -/
def requireDomain (s : State) (go : Domain → Result) : Result :=
  match s.dom with
  | none => raiseError .invalidDomain s
  | some d => go d

/-! ### Derived domain quantities (spec/10_state.md R31) -/

/-- `b_max + 1 = 10^bd`, the weight of the first field. -/
abbrev Domain.bSize (d : Domain) : Nat := 10 ^ d.bDigits.toNat

/-- `a_max + 1 = 10^ad`. -/
abbrev Domain.aSize (d : Domain) : Nat := 10 ^ d.aDigits.toNat

/-- `a_max = 10^ad - 1`. -/
abbrev Domain.aMax (d : Domain) : Nat := d.aSize - 1

/-- `b_max = 10^bd - 1`. -/
abbrev Domain.bMax (d : Domain) : Nat := d.bSize - 1

/-- `N = domain_size = 10^(ad + bd)`. -/
abbrev Domain.size (d : Domain) : Nat := 10 ^ (d.aDigits.toNat + d.bDigits.toNat)

/-! ### Exact arithmetic -/

/-- `(x - f) mod r`, the Euclidean remainder of a difference that may be negative (R9). -/
def subMod (x f r : Nat) : Nat := (((x : Int) - (f : Int)) % (r : Int)).toNat

/-- The greatest `s` with `s * s <= n` that can be had from `root` by setting some of the bits below bit `k`. -/
def isqrtBits (n : Nat) : Nat → Nat → Nat
  | 0, root => root
  | k + 1, root =>
    if (root + 2 ^ k) * (root + 2 ^ k) ≤ n then isqrtBits n k (root + 2 ^ k) else isqrtBits n k root

/-- `isqrt(n)`, the greatest `s` with `s * s <= n` (R10), one bit at a time. -/
def isqrt (n : Nat) : Nat := isqrtBits n (n.log2 / 2 + 1) 0

/-- `ceil_sqrt(n)` (R10). -/
def ceilSqrt (n : Nat) : Nat :=
  if isqrt n * isqrt n = n then isqrt n else isqrt n + 1

end Sys2Proof.Machine
end

