-- ==== Sys2Proof/Machine/Feistel.lean ====
section
/-! DEFINITION. The Feistel cipher engine: the pure functions of spec/41_feistel_cipher.md that ENCODE and DECODE call. They take the round function as an argument, so they can be run with any. -/

namespace Sys2Proof.Machine

/-- `split(c)` (R171). -/
def split (r c : Nat) : Nat × Nat := (c / r, c % r)

/-- `combine(L, R)` (R171). -/
def combine (r : Nat) (lr : Nat × Nat) : Nat := lr.1 * r + lr.2

/-- Forward round `i` (R174): `L' = R`, `R' = (L + F) mod r`. -/
def forwardRound (rf : RoundFn) (ctx : CipherContext) (i : Nat) (lr : Nat × Nat) : Nat × Nat :=
  (lr.2, (lr.1 + rf ctx.key ctx.tweak i lr.2) % ctx.r)

/-- Inverse round `i` (R176): `R = L'`, `L = (R' - F) mod r`, the Euclidean remainder. -/
def inverseRound (rf : RoundFn) (ctx : CipherContext) (i : Nat) (lr : Nat × Nat) : Nat × Nat :=
  (subMod lr.2 (rf ctx.key ctx.tweak i lr.1) ctx.r, lr.1)

/-- Forward rounds `0, 1, ..., n - 1`, in increasing order (R175). -/
def forwardRounds (rf : RoundFn) (ctx : CipherContext) : Nat → Nat × Nat → Nat × Nat
  | 0, lr => lr
  | n + 1, lr => forwardRound rf ctx n (forwardRounds rf ctx n lr)

/-- Inverse rounds `n - 1, ..., 1, 0`, in decreasing order (R177). -/
def inverseRounds (rf : RoundFn) (ctx : CipherContext) : Nat → Nat × Nat → Nat × Nat
  | 0, lr => lr
  | n + 1, lr => inverseRounds rf ctx n (inverseRound rf ctx n lr)

/-- `T(ctx, c)` (R175). -/
def transformT (rf : RoundFn) (ctx : CipherContext) (c : Nat) : Nat :=
  combine ctx.r (forwardRounds rf ctx ctx.rounds.toNat (split ctx.r c))

/-- `Tinv(ctx, c)` (R177). -/
def transformTinv (rf : RoundFn) (ctx : CipherContext) (c : Nat) : Nat :=
  combine ctx.r (inverseRounds rf ctx ctx.rounds.toNat (split ctx.r c))

/-- The cycle-walking loop of R179 and R180 with the transform `t`: `left` is how many applications the guard
still allows and `k` how many were made. -/
def cycleWalk (t : Nat → Nat) (size : Nat) : (left y k : Nat) → Option (Nat × Nat)
  | 0, _, _ => none
  | left + 1, y, k => if t y < size then some (t y, k + 1) else cycleWalk t size left (t y) (k + 1)

/-- `FWD(ctx, N, c0)` (R179): the value and the walk count, or none where the guard trips. -/
def fwd (p : Params) (ctx : CipherContext) (size c0 : Nat) : Option (Nat × Nat) :=
  cycleWalk (transformT p.rf ctx) size p.walkLimit c0 0

/-- `INV(ctx, N, c)` (R180). -/
def inv (p : Params) (ctx : CipherContext) (size c : Nat) : Option (Nat × Nat) :=
  cycleWalk (transformTinv p.rf ctx) size p.walkLimit c 0

end Sys2Proof.Machine
end

