-- ==== Sys2Proof/Syntax.lean ====
section
/-! DEFINITION. The block's instructions: one constructor per row of spec/opcode_table.json (spec/30_encoding.md R100, R101). -/

namespace Sys2Proof

/-- A decoded command word (R107). -/
inductive Instr where
  /-- CONSTRUCT (R102): `a_digits` is IMM1 and `b_digits` is IMM2. -/
  | construct (aDigits bDigits : Byte)
  /-- INSTALL_CIPHER (R103): `rounds` is IMM1. -/
  | installCipher (rounds : Byte)
  /-- ENCODE (R104). -/
  | encode
  /-- DECODE (R104). -/
  | decode
  /-- MAXIMUMS (R104). -/
  | maximums
  /-- ILLEGAL (R106): any word that no other row matches; it carries the word. -/
  | illegal (word : Word)
  deriving DecidableEq, Repr

end Sys2Proof
end

