-- ==== Sys2Proof/WellFormed.lean ====
section
/-! DEFINITION. Which terms of `Instr` stand for a command word (spec/30_encoding.md R102, R103, R106). -/

namespace Sys2Proof

/-- R106: the words that are illegal, listed as the rule lists them. -/
def illegalWord (w : Word) : Bool :=
  let op := (w.extractLsb' 0 4).toNat
  let res0 := (w.extractLsb' 4 4).toNat
  let imm1 := (w.extractLsb' 8 8).toNat
  let imm2 := (w.extractLsb' 16 8).toNat
  let res1 := (w.extractLsb' 24 8).toNat
  decide (op = 0 ∨ 6 ≤ op
    ∨ res0 ≠ 0 ∨ res1 ≠ 0
    ∨ (op = 2 ∧ (imm2 ≠ 0 ∨ imm1 < 2))
    ∨ ((op = 3 ∨ op = 4 ∨ op = 5) ∧ (imm1 ≠ 0 ∨ imm2 ≠ 0)))

/-- R102: every pair of immediates is a valid CONSTRUCT; R103: INSTALL_CIPHER takes at least 2 rounds; ILLEGAL
stands only for a word of R106's list. -/
def Instr.wellFormed : Instr → Bool
  | .construct _ _ => true
  | .installCipher rounds => decide (2 ≤ rounds.toNat)
  | .encode => true
  | .decode => true
  | .maximums => true
  | .illegal word => illegalWord word

end Sys2Proof
end

