-- ==== Sys2Proof/Decode.lean ====
section
/-! DEFINITION. The decoder, total on every word (spec/30_encoding.md R107) and on every byte string, and after it the encoder (R102 to R104), the byte order of a command word (spec/20_memory.md R73) and the disassembler (R109). -/

namespace Sys2Proof

/-! ### Fields of the one format CMD32 (R100) -/

/-- OP, bits [3:0]. -/
def opField (w : Word) : BitVec 4 := w.extractLsb' 0 4

/-- RES0, bits [7:4]. -/
def res0Field (w : Word) : BitVec 4 := w.extractLsb' 4 4

/-- IMM1, bits [15:8]. -/
def imm1Field (w : Word) : Byte := w.extractLsb' 8 8

/-- IMM2, bits [23:16]. -/
def imm2Field (w : Word) : Byte := w.extractLsb' 16 8

/-- RES1, bits [31:24]. -/
def res1Field (w : Word) : Byte := w.extractLsb' 24 8

/-- `decode(w)` of R107. -/
def decodeWord (w : Word) : Instr :=
  if res0Field w ≠ 0 ∨ res1Field w ≠ 0 then .illegal w
  else if opField w = 1 then .construct (imm1Field w) (imm2Field w)
  else if opField w = 2 ∧ imm2Field w = 0 ∧ 2 ≤ (imm1Field w).toNat then .installCipher (imm1Field w)
  else if opField w = 3 ∧ imm1Field w = 0 ∧ imm2Field w = 0 then .encode
  else if opField w = 4 ∧ imm1Field w = 0 ∧ imm2Field w = 0 then .decode
  else if opField w = 5 ∧ imm1Field w = 0 ∧ imm2Field w = 0 then .maximums
  else .illegal w

/-! ### Bytes -/

/-- Byte lane `m` of a word is bits `[8m+7:8m]` (spec/20_memory.md R73). -/
def laneOf (w : Word) (m : Nat) : Byte := w.extractLsb' (8 * m) 8

/-- The word whose byte lanes 0 to 3 are the four bytes (R73: little-endian). -/
def wordOfLanes (b0 b1 b2 b3 : Byte) : Word := b3 ++ b2 ++ b1 ++ b0

/-- A word's four bytes, the lowest address first. -/
def bytesOfWord (w : Word) : List Byte := [laneOf w 0, laneOf w 1, laneOf w 2, laneOf w 3]

/-- Why a byte string holds no command word. -/
inductive DecodeError where
  /-- fewer than the four bytes of a command word (R100: one length, 32 bits) -/
  | truncated
  deriving DecidableEq, Repr

/-- The command at the front of a byte string, and the bytes after it. -/
def decodeBytes : List Byte → Except DecodeError (Instr × List Byte)
  | b0 :: b1 :: b2 :: b3 :: rest => .ok (decodeWord (wordOfLanes b0 b1 b2 b3), rest)
  | _ => .error .truncated

/-- The instruction the decoder reads from the opcode table's word `w` of `nbits` bits; bits above `nbits` are 0.
There is one length, 32 bits (R100), so a longer word is no command. -/
def decodeTableWord (nbits w : Nat) : Option Instr :=
  if nbits ≤ 32 then
    match decodeBytes (bytesOfWord (BitVec.ofNat 32 (w % 2 ^ nbits))) with
    | .ok (i, _) => some i
    | .error _ => none
  else none

/-! ### The encoder (R102, R103, R104) -/

/-- The command word of an instruction. -/
def encode : Instr → Word
  | .construct aDigits bDigits => (0x00000001 : Word) ||| (bDigits.setWidth 32 <<< 16) ||| (aDigits.setWidth 32 <<< 8)
  | .installCipher rounds => (0x00000002 : Word) ||| (rounds.setWidth 32 <<< 8)
  | .encode => 0x00000003
  | .decode => 0x00000004
  | .maximums => 0x00000005
  | .illegal word => word

/-- The bytes of an instruction's command word, the lowest address first. -/
def encodeBytes (i : Instr) : List Byte := bytesOfWord (encode i)

/-! ### The opcode table's match and mask columns (spec/opcode_table.json) -/

/-- The row's mask. -/
def rowMask : Instr → Word
  | .construct _ _ => 0xFF0000FF
  | .installCipher _ => 0xFFFF00FF
  | .encode => 0xFFFFFFFF
  | .decode => 0xFFFFFFFF
  | .maximums => 0xFFFFFFFF
  | .illegal _ => 0x00000000

/-- The row's match. -/
def rowMatch : Instr → Word
  | .construct _ _ => 0x00000001
  | .installCipher _ => 0x00000002
  | .encode => 0x00000003
  | .decode => 0x00000004
  | .maximums => 0x00000005
  | .illegal _ => 0x00000000

/-! ### The disassembler (R109) -/

/-- One upper-case hexadecimal digit. -/
def hexDigit (d : BitVec 4) : Char :=
  (['0', '1', '2', '3', '4', '5', '6', '7', '8', '9', 'A', 'B', 'C', 'D', 'E', 'F'].getD d.toNat '0')

/-- A word as eight hexadecimal digits after `0x`. -/
def hexWord (w : Word) : String :=
  String.ofList ('0' :: 'x' :: (List.range 8).map fun k => hexDigit (w.extractLsb' (4 * (7 - k)) 4))

/-- R109: the mnemonic form with decimal immediates, an illegal word as `.word V`. -/
def disassemble : Instr → String
  | .construct aDigits bDigits => "construct " ++ toString aDigits.toNat ++ ", " ++ toString bDigits.toNat
  | .installCipher rounds => "install_cipher " ++ toString rounds.toNat
  | .encode => "encode"
  | .decode => "decode"
  | .maximums => "maximums"
  | .illegal word => ".word " ++ hexWord word

end Sys2Proof
end

