-- ==== Sys2Proof/Machine/Operands.lean ====
section
/-! DEFINITION. Where operands stand: the register map of spec/10_state.md R36, the words of wide registers (R45, R46, R47; spec/20_memory.md R74), the staged bytes (R43, R44) and the register operands of the commands. -/

namespace Sys2Proof.Machine

/-- The wide registers (R45, R46). -/
inductive WideReg where
  | aIn
  | bIn
  | cIn
  | aOut
  | bOut
  | cOut
  deriving DecidableEq, Repr

/-- The registers of the window, a register per 32-bit offset (R36). -/
inductive Reg where
  | cmd
  | status
  | config
  | cwCount
  | keyLen
  | tweakLen
  | keyData (j : Fin 16)
  | tweakData (j : Fin 16)
  | wide (x : WideReg) (j : Fin 8)
  deriving DecidableEq, Repr

/-- The first offset of a wide register (R36). -/
def WideReg.base : WideReg → Nat
  | .aIn => 0x100
  | .bIn => 0x120
  | .cIn => 0x140
  | .aOut => 0x180
  | .bOut => 0x1A0
  | .cOut => 0x1C0

/-- A register's offset (R36). -/
def Reg.offset : Reg → Nat
  | .cmd => 0x000
  | .status => 0x004
  | .config => 0x008
  | .cwCount => 0x00C
  | .keyLen => 0x010
  | .tweakLen => 0x014
  | .keyData j => 0x040 + 4 * j.val
  | .tweakData j => 0x080 + 4 * j.val
  | .wide x j => x.base + 4 * j.val

/-- A word index among 16, modulo 16. -/
def index16 (k : Nat) : Fin 16 := ⟨k % 16, Nat.mod_lt _ (by decide)⟩

/-- A word index among 8, modulo 8. -/
def index8 (k : Nat) : Fin 8 := ⟨k % 8, Nat.mod_lt _ (by decide)⟩

/-- The six registers at the bottom of the window, by word index (R36). -/
def controlAt : Nat → Option Reg
  | 0 => some .cmd
  | 1 => some .status
  | 2 => some .config
  | 3 => some .cwCount
  | 4 => some .keyLen
  | 5 => some .tweakLen
  | _ => none

/-- The register map of R36 at an offset that is a multiple of 4, by 32-byte rows of the window; none at a reserved
offset. Row 2 is 0x040, row 4 is 0x080, row 8 is 0x100 and row 12 is 0x180. -/
def regAtAligned (o : Nat) : Option Reg :=
  match o / 0x020 with
  | 0 => controlAt (o / 4)
  | 2 => some (.keyData (index16 (o / 4)))
  | 3 => some (.keyData (index16 (o / 4)))
  | 4 => some (.tweakData (index16 (o / 4)))
  | 5 => some (.tweakData (index16 (o / 4)))
  | 8 => some (.wide .aIn (index8 (o / 4)))
  | 9 => some (.wide .bIn (index8 (o / 4)))
  | 10 => some (.wide .cIn (index8 (o / 4)))
  | 12 => some (.wide .aOut (index8 (o / 4)))
  | 13 => some (.wide .bOut (index8 (o / 4)))
  | 14 => some (.wide .cOut (index8 (o / 4)))
  | _ => none

/-- The register at an offset (R36). Of an offset that is not a multiple of 4 it answers none; the port admits no
access there (spec/20_memory.md R72). -/
def regAt (off : Offset) : Option Reg := if off.toNat % 4 = 0 then regAtAligned off.toNat else none

/-! ### Words of a wide register (R47; spec/20_memory.md R74: word 0 is the least significant) -/

/-- Word `j` of a wide value: bits `[32j+31:32j]`. -/
def wordOf (x : Wide) (j : Nat) : Word := x.extractLsb' (32 * j) 32

/-- The wide value with word `j` replaced. -/
def withWord (x : Wide) (j : Nat) (v : Word) : Wide :=
  (x &&& ~~~((0xFFFFFFFF : Wide) <<< (32 * j))) ||| (v.setWidth 256 <<< (32 * j))

/-- The value of a list of 32-bit words, the first the least significant (R47, spec/30_encoding.md R110 `rdw`). -/
def valueOfWords : List Word → Nat
  | [] => 0
  | w :: ws => w.toNat + 2 ^ 32 * valueOfWords ws

/-- `x[NAME]` of a wide register, as the state holds it (spec/00_scope.md R11). -/
def State.getWide (s : State) : WideReg → Wide
  | .aIn => s.aIn
  | .bIn => s.bIn
  | .cIn => s.cIn
  | .aOut => s.aOut
  | .bOut => s.bOut
  | .cOut => s.cOut

/-! ### Staged bytes -/

/-- The buffer with bytes `4j .. 4j+3` taken from the lanes of `v` (R43, R44). -/
def withLanes (buf : Vector Byte 64) (j : Fin 16) (v : Word) : Vector Byte 64 :=
  Vector.ofFn fun i : Fin 64 => if i.val / 4 = j.val then laneOf v (i.val % 4) else buf[i]

/-- The word whose lanes are bytes `4j .. 4j+3` of the buffer (R44). -/
def lanesAt (buf : Vector Byte 64) (j : Fin 16) : Word :=
  wordOfLanes (buf[4 * j.val]'(by omega)) (buf[4 * j.val + 1]'(by omega)) (buf[4 * j.val + 2]'(by omega))
    (buf[4 * j.val + 3]'(by omega))

/-- The first `len` bytes of a staging buffer: the byte string INSTALL_CIPHER takes (R43, R44). -/
abbrev stagedBytes (buf : Vector Byte 64) (len : Nat) : List Byte := buf.toList.take len

/-! ### Register operands of the commands (spec/30_encoding.md R101, R105) -/

/-- ENCODE's operand `a`. -/
abbrev State.operandA (s : State) : Nat := s.aIn.toNat

/-- ENCODE's operand `b`. -/
abbrev State.operandB (s : State) : Nat := s.bIn.toNat

/-- DECODE's operand `c`. -/
abbrev State.operandC (s : State) : Nat := s.cIn.toNat

/-- INSTALL_CIPHER's staged key. -/
abbrev State.stagedKey (s : State) : List Byte := stagedBytes s.keyStage s.keyLen.toNat

/-- INSTALL_CIPHER's staged tweak. -/
abbrev State.stagedTweak (s : State) : List Byte := stagedBytes s.tweakStage s.tweakLen.toNat

end Sys2Proof.Machine
end

