-- ==== Sys2Proof/Machine/DomainEncoder.lean ====
section
/-! DEFINITION. The commands of the mixed-radix encoder and the illegal command (spec/40_domain_encoder.md R133 to R140). A command that uses a parameter of spec/00_scope.md R6 is written over any parameters, and its meaning takes the block's own. -/

namespace Sys2Proof.Machine

/-- `pair(a, b) = a * (b_max + 1) + b` (R139). -/
def pair (d : Domain) (a b : Nat) : Nat := a * d.bSize + b

/-- `unpair(c0) = (c0 div (b_max + 1), c0 mod (b_max + 1))` (R140). -/
def unpair (d : Domain) (c0 : Nat) : Nat × Nat := (c0 / d.bSize, c0 % d.bSize)

/-- The encryption step of ENCODE (R135): the identity with walk count 0 when no cipher is installed. -/
def encipher (p : Params) (ctx : Option CipherContext) (size c0 : Nat) : Option (Nat × Nat) :=
  match ctx with
  | none => some (c0, 0)
  | some c => fwd p c size c0

/-- The decryption step of DECODE (R136): the identity with walk count 0 when no cipher is installed. -/
def decipher (p : Params) (ctx : Option CipherContext) (size c : Nat) : Option (Nat × Nat) :=
  match ctx with
  | none => some (c, 0)
  | some x => inv p x size c

/-- CONSTRUCT (R133). -/
def execConstruct (aDigits bDigits : Byte) (s : State) : Result :=
  if aDigits.toNat < 1 ∨ bDigits.toNat < 1 then raiseError .invalidDomain s
  else if 2 ^ Config.width ≤ 10 ^ (aDigits.toNat + bDigits.toNat) then raiseError .invalidDomain s
  else completeOk { s with dom := some ⟨aDigits, bDigits⟩, ctx := none }

/-- INSTALL_CIPHER (R134) with parameters `p`. -/
def installCipherWith (p : Params) (rounds : Byte) (s : State) : Result :=
  requireDomain s fun d =>
    if d.size < 2 then raiseError .invalidDomain s
    else if s.keyLen.toNat = 0 ∨ Config.keyMax < s.keyLen.toNat then raiseError .invalidKey s
    else if Config.tweakMax < s.tweakLen.toNat then raiseError .invalidKey s
    else if p.rfKeyOk s.stagedKey = false then raiseError .invalidKey s
    else completeOk { s with ctx := some ⟨s.stagedKey, s.stagedTweak, rounds, ceilSqrt d.size⟩ }

/-- INSTALL_CIPHER (R134). -/
def execInstallCipher (rounds : Byte) (s : State) : Result := installCipherWith Config.params rounds s

/-- How ENCODE ends after its encryption step (R135): InternalError where the walk failed, else its writes and OK. -/
def encodeResult (s : State) : Option (Nat × Nat) → Result
  | none => raiseError .internalError s
  | some (c, k) => completeOk { s with cOut := BitVec.ofNat 256 c, cw := BitVec.ofNat 32 k }

/-- ENCODE (R135) with parameters `p`. -/
def encodeWith (p : Params) (s : State) : Result :=
  requireDomain s fun d =>
    if d.aMax < s.operandA ∨ d.bMax < s.operandB then raiseError .outOfRange s
    else encodeResult s (encipher p s.ctx d.size (pair d s.operandA s.operandB))

/-- ENCODE (R135). -/
def execEncode (s : State) : Result := encodeWith Config.params s

/-- How DECODE ends after its decryption step (R136): InternalError where the walk failed, else its writes and OK. -/
def decodeResult (d : Domain) (s : State) : Option (Nat × Nat) → Result
  | none => raiseError .internalError s
  | some (c0, k) =>
    completeOk { s with
      aOut := BitVec.ofNat 256 (unpair d c0).1
      bOut := BitVec.ofNat 256 (unpair d c0).2
      cw := BitVec.ofNat 32 k }

/-- DECODE (R136) with parameters `p`. -/
def decodeWith (p : Params) (s : State) : Result :=
  requireDomain s fun d =>
    if d.size ≤ s.operandC then raiseError .outOfRange s
    else decodeResult d s (decipher p s.ctx d.size s.operandC)

/-- DECODE (R136). -/
def execDecode (s : State) : Result := decodeWith Config.params s

/-- MAXIMUMS (R137). -/
def execMaximums (s : State) : Result :=
  requireDomain s fun d =>
    completeOk { s with aOut := BitVec.ofNat 256 d.aMax, bOut := BitVec.ofNat 256 d.bMax }

/-- ILLEGAL (R138): `raise Error(IllegalCommand)`, whatever the word. -/
def execIllegal (_word : Word) (s : State) : Result := raiseError .illegalCommand s

end Sys2Proof.Machine
end

