-- ==== Sys2Proof/Machine/Dispatch.lean ====
section
/-! DEFINITION. One arm per constructor of Instr (spec/40_domain_encoder.md R131: run the rule of the decoded command). -/

namespace Sys2Proof.Machine

def exec (i : Instr) (s : State) : Host.Outcome State Fault Refusal :=
  match i with
  | .construct aDigits bDigits => Sys2Proof.Machine.execConstruct aDigits bDigits s
  | .installCipher rounds => Sys2Proof.Machine.execInstallCipher rounds s
  | .encode => Sys2Proof.Machine.execEncode s
  | .decode => Sys2Proof.Machine.execDecode s
  | .maximums => Sys2Proof.Machine.execMaximums s
  | .illegal word => Sys2Proof.Machine.execIllegal word s

end Sys2Proof.Machine
end

