-- ==== Sys2Proof/Machine/Flags.lean ====
section
/-! DEFINITION. The words STATUS and CONFIG, views of the internal state (spec/10_state.md R38, R39), and the zero-extended length registers (R41, R42). -/

namespace Sys2Proof.Machine

/-- STATUS (R38): ERR in [11:8], CIPHER_VALID [2], CONFIGURED [1], BUSY [0]; the other bits read 0. -/
def State.statusWord (s : State) : Word :=
  (0 : BitVec 20) ++ s.err ++ (0 : BitVec 5)
    ++ BitVec.ofBool s.ctx.isSome ++ BitVec.ofBool s.dom.isSome ++ BitVec.ofBool s.busy

/-- CONFIG.A_DIGITS (R39). -/
def State.aDigitsField (s : State) : Byte := s.dom.elim 0 (·.aDigits)

/-- CONFIG.B_DIGITS (R39). -/
def State.bDigitsField (s : State) : Byte := s.dom.elim 0 (·.bDigits)

/-- CONFIG.ROUNDS (R39). -/
def State.roundsField (s : State) : Byte := s.ctx.elim 0 (·.rounds)

/-- CONFIG (R39): ROUNDS in [23:16], B_DIGITS [15:8], A_DIGITS [7:0]; bits [31:24] read 0. -/
def State.configWord (s : State) : Word :=
  (0 : BitVec 8) ++ s.roundsField ++ s.bDigitsField ++ s.aDigitsField

/-- KEY_LEN and TWEAK_LEN as they read (R41, R42): bits [31:7] are 0. -/
def lengthWord (len : BitVec 7) : Word := len.setWidth 32

/-- What a write of KEY_LEN or TWEAK_LEN stores (R41, R42): bits [6:0]. -/
def lengthField (v : Word) : BitVec 7 := v.extractLsb' 0 7

/-- The ERR code is one of those R210 defines, 0 to 5. -/
def State.errDefined (s : State) : Bool := decide (s.err.toNat ≤ 5)

end Sys2Proof.Machine
end

