-- ==== Sys2Proof/Machine/Port.lean ====
section
/-! DEFINITION. The register port: which accesses are admitted (spec/20_memory.md R72), reads (R75), writes (R76), issue of a command (spec/40_domain_encoder.md R130) and reset (spec/70_reset_and_hazards.md R250). -/

namespace Sys2Proof.Machine

/-- R72: one 32-bit beat at a multiple of 4. -/
def Access.admitted (a : Access) : Bool := decide (a.bytes = 4 ∧ a.beats = 1 ∧ a.off.toNat % 4 = 0)

/-- The value a register reads as (R75; spec/10_state.md R37 to R46). The write-only CMD and KEY_DATA read 0. -/
def readReg (r : Reg) (s : State) : Word :=
  match r with
  | .cmd => 0
  | .status => s.statusWord
  | .config => s.configWord
  | .cwCount => s.cw
  | .keyLen => lengthWord s.keyLen
  | .tweakLen => lengthWord s.tweakLen
  | .keyData _ => 0
  | .tweakData j => lanesAt s.tweakStage j
  | .wide x j => wordOf (s.getWide x) j.val

/-- `MemRead(FFX_BASE + off, 4)` (R75): a reserved offset reads 0. -/
def portRead (off : Offset) (s : State) : Word :=
  match regAt off with
  | some r => readReg r s
  | none => 0

/-- Issue (R130): `S.pend <- w; S.busy <- true`. -/
def State.issue (s : State) (w : Word) : State := { s with pend := w, busy := true }

/-- What a write of `v` does to a register of an idle block (R76; spec/10_state.md R37 to R46): CMD issues, the other
writable registers store, and the read-only ones ignore it. -/
def writeReg (r : Reg) (v : Word) (s : State) : State :=
  match r with
  | .cmd => s.issue v
  | .status => s
  | .config => s
  | .cwCount => s
  | .keyLen => { s with keyLen := lengthField v }
  | .tweakLen => { s with tweakLen := lengthField v }
  | .keyData j => { s with keyStage := withLanes s.keyStage j v }
  | .tweakData j => { s with tweakStage := withLanes s.tweakStage j v }
  | .wide .aIn j => { s with aIn := withWord s.aIn j.val v }
  | .wide .bIn j => { s with bIn := withWord s.bIn j.val v }
  | .wide .cIn j => { s with cIn := withWord s.cIn j.val v }
  | .wide .aOut _ => s
  | .wide .bOut _ => s
  | .wide .cOut _ => s

/-- `MemWrite(FFX_BASE + off, 4, v)` (R76): while busy it is ignored, and a reserved offset ignores it. -/
def portWrite (off : Offset) (v : Word) (s : State) : State :=
  if s.busy then s
  else
    match regAt off with
    | some r => writeReg r v s
    | none => s

/-- The port's answer to a read (R75), kept for the host. -/
def State.reply (s : State) (off : Offset) (value : Word) : State :=
  { s with replies := ⟨off, value⟩ :: s.replies }

/-- A read (R75). A STATUS read that would show a reserved ERR code faults (spec/93_implementation_defined.md I17). -/
def readAccess (off : Offset) (s : State) : Result :=
  if regAt off = some .status ∧ s.errDefined = false then .fault .reservedErrCode
  else .next (s.reply off (portRead off s))

/-- A host access as it reaches the port (R72, R75, R76). -/
def portAccess (a : Access) (s : State) : Result :=
  if a.admitted then
    match a.kind with
    | .read => readAccess a.off s
    | .write v => .next (portWrite a.off v s)
  else .refused .accessNotAdmitted

/-- Reset (R250): every component of S takes its reset value; the port's order and the replies are not the block's. -/
def State.applyReset (s : State) : State := { State.reset with order := s.order, replies := s.replies }

/-! ### The bus side (spec/20_memory.md R70) -/

/-- The access that reaches the port when a bus master accesses bus address `addr`: none outside the window, and the
low 12 address bits inside it. -/
def busAccess (p : Params) (addr : Nat) (kind : AccessKind) (bytes beats : Nat) : Option PortEvent :=
  if p.ffxBase ≤ addr ∧ addr ≤ p.ffxBase + 0xFFF then
    some (.access ⟨kind, BitVec.ofNat 12 addr, bytes, beats⟩)
  else none

/-- `MemRead(addr, 4)` (spec/00_scope.md R11). -/
def memRead (p : Params) (addr : Nat) : Option PortEvent := busAccess p addr .read 4 1

/-- `MemWrite(addr, 4, v)` (spec/00_scope.md R11). -/
def memWrite (p : Params) (addr : Nat) (v : Word) : Option PortEvent := busAccess p addr (.write v) 4 1

end Sys2Proof.Machine
end

