-- ==== Sys2Proof/Machine/Engine.lean ====
section
/-! DEFINITION. The turns of the port's order (spec/20_memory.md R79): an access, the engine's completion step (spec/40_domain_encoder.md R131), reset (spec/70_reset_and_hazards.md R250). -/

namespace Sys2Proof.Machine

/-- `complete_step` (R131): decode S.pend and run its rule, which ends with S.busy cleared (spec/60_exceptions.md R217,
R218). -/
def completeStep (s : State) : Result := exec (decodeWord s.pend) s

/-- The engine's turn: its step is enabled exactly when S.busy is set (R131); otherwise nothing happens. -/
def engineTurn (s : State) : Result := if s.busy then completeStep s else .next s

/-- One turn. -/
def takeTurn (e : PortEvent) (s : State) : Result :=
  match e with
  | .access a => portAccess a s
  | .engine => engineTurn s
  | .reset => .next s.applyReset
  | .accessInReset _ => .refused .accessDuringReset

/-- The state with the oldest turn taken off the order. -/
def State.withOrder (s : State) (rest : List PortEvent) : State := { s with order := rest }

/-- The next turn of the order; with no turn listed the engine's comes, so that an issued command completes
(spec/70_reset_and_hazards.md R257; log entry 2). -/
def nextTurn (s : State) : Result :=
  match s.order with
  | [] => engineTurn s
  | e :: rest => takeTurn e (s.withOrder rest)

/-- The state with the command word `w` issued and the engine's turn next (R130; log entry 5). -/
def State.presentCommand (s : State) (w : Word) : State :=
  (s.issue w).withOrder (.engine :: s.order)

end Sys2Proof.Machine
end

