-- ==== Sys2Proof/Machine/Step.lean ====
section
/-! DEFINITION. The step: the next turn at the port (spec/20_memory.md R79; spec/40_domain_encoder.md R131). -/

namespace Sys2Proof.Machine

/-- One step of the block and its port. -/
def step (s : State) : Host.Outcome State Fault Refusal := nextTurn s

/-- `s` with the command word `w` (of `nbits` bits, numbered as the opcode table numbers them) issued, so that the very
next step completes it (log entry 5). -/
def State.withFetchWord (s : State) (nbits w : Nat) : State :=
  s.presentCommand (BitVec.ofNat 32 (w % 2 ^ nbits))

end Sys2Proof.Machine
end

