-- ==== Sys2Proof/Machine/HostNotation.lean ====
section
/-! DEFINITION. Host programs (spec/30_encoding.md R109, R110) as turns of the port's order, and where one ends (spec/70_reset_and_hazards.md R259). None of these is a feature of the block. -/

namespace Sys2Proof.Machine

/-- `wr OFF, V`. -/
def wr (off : Nat) (v : Word) : PortEvent := .access ⟨.write v, BitVec.ofNat 12 off, 4, 1⟩

/-- `rd OFF`. -/
def rd (off : Nat) : PortEvent := .access ⟨.read, BitVec.ofNat 12 off, 4, 1⟩

/-- A command in the notation of R109, an illegal word as `.word V`: a write of its word to CMD. -/
def issueCommand (i : Instr) : PortEvent := wr 0x000 (encode i)

/-- `wrw X, v`: the eight words of `v` in increasing `j`. -/
def wrw (x : WideReg) (v : Wide) : List PortEvent :=
  (List.range 8).map fun j => wr (x.base + 4 * j) (wordOf v j)

/-- `rdw X`: the eight words of `X` in increasing `j`; their value is `valueOfWords`. -/
def rdw (x : WideReg) : List PortEvent := (List.range 8).map fun j => rd (x.base + 4 * j)

/-- `wait` with `polls` reads of STATUS ordered before the engine's turn and one after it. -/
def waitFor (polls : Nat) : List PortEvent := List.replicate polls (rd 0x004) ++ [.engine, rd 0x004]

/-- Word `j` of a byte string, missing bytes 0. -/
def stringWord (bytes : List Byte) (j : Nat) : Word :=
  wordOfLanes (bytes.getD (4 * j) 0) (bytes.getD (4 * j + 1) 0) (bytes.getD (4 * j + 2) 0) (bytes.getD (4 * j + 3) 0)

/-- The words of a byte string, written from offset `base` on: `ceil(n/4)` of them. -/
def writeString (base : Nat) (bytes : List Byte) : List PortEvent :=
  (List.range ((bytes.length + 3) / 4)).map fun j => wr (base + 4 * j) (stringWord bytes j)

/-- `setkey [k0, ..., k(n-1)]`. -/
def setkey (bytes : List Byte) : List PortEvent :=
  wr 0x010 (BitVec.ofNat 32 bytes.length) :: writeString 0x040 bytes

/-- `settweak [t0, ..., t(n-1)]`. -/
def settweak (bytes : List Byte) : List PortEvent :=
  wr 0x014 (BitVec.ofNat 32 bytes.length) :: writeString 0x080 bytes

/-- `run CMD`: the command, then `wait`. -/
def runCommand (i : Instr) (polls : Nat) : List PortEvent := issueCommand i :: waitFor polls

/-! ### The end of a host program (spec/70_reset_and_hazards.md R259) -/

/-- One turn of the port's order, and whether it is an access of the host program in question. The others are the
engine's turns, resets, and the accesses of other hosts, which R259 does not exclude (log entry 14). -/
structure HostTurn where
  own : Bool
  event : PortEvent
  deriving DecidableEq, Repr

/-- The host program's accesses, in their order (R109). -/
def programOf (turns : List HostTurn) : List PortEvent := (turns.filter (·.own)).map (·.event)

/-- How many turns are listed after the program's last access. -/
def turnsAfterProgram (turns : List HostTurn) : Nat := (turns.reverse.takeWhile fun x => !x.own).length

/-- R259: the program has ended: its last access, after which `later` turns were listed, is performed, and BUSY is 0. -/
def State.programEnded (later : Nat) (s : State) : Bool := decide (s.order.length ≤ later) && !s.busy

/-- Steps, at most `fuel`, up to the first state in which the program has ended. -/
def runToEnd (later : Nat) : Nat → State → Result
  | 0, s => .next s
  | fuel + 1, s =>
    if s.programEnded later then .next s
    else
      match step s with
      | .next t => runToEnd later fuel t
      | .fault f => .fault f
      | .refused r => .refused r

/-- R259: the end state of the program whose accesses are marked in `turns`, from the block state of `s`: the block state
at the first point where it has ended. Every listed turn and one more are enough (log entries 2, 14). -/
def programEnd (turns : List HostTurn) (s : State) : Result :=
  runToEnd (turnsAfterProgram turns) (turns.length + 1) (s.withOrder (turns.map (·.event)))

end Sys2Proof.Machine
end

