-- ==== Sys2Proof/Safety.lean ====
section
/-! DEFINITION. What a good state of the block is (spec/10_state.md R32 to R34, R40; spec/93_implementation_defined.md I17), and what a safe step is. -/

namespace Sys2Proof.Machine

/-- R32: a configured domain has two positive digit counts whose sum is at most D_MAX. -/
abbrev Domain.Legal (d : Domain) : Prop :=
  1 ≤ d.aDigits.toNat ∧ 1 ≤ d.bDigits.toNat ∧ d.aDigits.toNat + d.bDigits.toNat ≤ Config.digitsMax

/-- R33 and R34: an installed context under the domain `d`, with parameters `p`. -/
structure CipherContext.FitsDomain (p : Params) (d : Domain) (c : CipherContext) : Prop where
  key_length : 1 ≤ c.key.length ∧ c.key.length ≤ Config.keyMax
  key_ok : p.rfKeyOk c.key = true
  tweak_length : c.tweak.length ≤ Config.tweakMax
  rounds_least : 2 ≤ c.rounds.toNat
  radix : c.r = ceilSqrt d.size

/-- The block's invariant. -/
structure State.Inv (s : State) : Prop where
  /-- R32 -/
  domain_legal : ∀ d, s.dom = some d → d.Legal
  /-- R33, R34 -/
  context_fits : ∀ c, s.ctx = some c → ∃ d, s.dom = some d ∧ c.FitsDomain Config.params d
  /-- R40: the range of CW_COUNT -/
  walk_count : s.cw.toNat ≤ Config.params.walkLimit
  /-- R210, I17: no reserved status code -/
  err_defined : s.err.toNat ≤ 5

/-- An access the port admits (spec/20_memory.md R72) or another turn that the platform may take: all but an access
during reset (spec/70_reset_and_hazards.md R250). -/
def PortEvent.allowed : PortEvent → Bool
  | .access a => a.admitted
  | .engine => true
  | .reset => true
  | .accessInReset _ => false

/-- A state whose next step is neither a fault nor a refusal. -/
def SafeStep (s : State) : Prop := ∃ t, step s = .next t

end Sys2Proof.Machine
end

