-- ==== Sys2Proof/Certificates/Slice0/Obligations.lean ====
section
/-! DEFINITION. The statements for the provers: what the numbered rules of spec/ say the commands and the machine do.
Two fields of State are the model's own, the port's order and the host's replies (log entries 2, 3); that a command leaves
them alone is the model's choice. That a completed command leaves S.pend at its word is log entry 4 (DEDUCED): the spec
leaves S.pend open while the block is idle (93_implementation_defined.md I19), and no read of the port shows it. -/

open Sys2Proof Sys2Proof.Machine

/-! ### Parameters and arithmetic (spec/00_scope.md) -/

/-- R7: the configuration's parameters meet the constraints, whatever their open values are. -/
def Obligations.ParametersMeetConstraints : Prop :=
  Config.params.Wf ∧ Config.width % 32 = 0 ∧ 213 ≤ Config.width

/-- 00_scope.md section 4 (R9, which the spec marks as derived): the remainder of a difference is the unique value
in `[0, r)` that differs from it by a multiple of `r`; with the rule's two numbers. -/
def Obligations.DifferenceRemainderIsEuclidean : Prop :=
  (∀ x f r : Nat, 0 < r →
    subMod x f r < r ∧ (r : Int) ∣ (x : Int) - f - subMod x f r
      ∧ ∀ y : Nat, y < r → (r : Int) ∣ (x : Int) - f - y → y = subMod x f r)
  ∧ subMod 30 52 32 = 10 ∧ subMod 0 129 32 = 31

/-- 00_scope.md section 4 (R10, marked derived) and 41_feistel_cipher.md section 1: `ceil_sqrt(n)` is the least
`r >= 1` with `r * r >= n`; for `N = 10^k` it squares to `N` when `k` is even and to more when `k` is odd. -/
def Obligations.CeilSqrtIsLeastRoot : Prop :=
  (∀ n : Nat, 1 ≤ n →
    1 ≤ ceilSqrt n ∧ n ≤ ceilSqrt n * ceilSqrt n ∧ ∀ q : Nat, n ≤ q * q → ceilSqrt n ≤ q)
  ∧ (∀ k : Nat, ceilSqrt (10 ^ (2 * k)) = 10 ^ k)
  ∧ (∀ k : Nat, 10 ^ (2 * k + 1) < ceilSqrt (10 ^ (2 * k + 1)) * ceilSqrt (10 ^ (2 * k + 1)))

/-! ### Encoding (spec/30_encoding.md) -/

/-- Decode and encode agree (30_encoding.md section 2): the decoder gives back every well-formed instruction from its word,
with every operand at every value. Two clauses are the model's choice: a command's byte form, little-endian, and that the
bytes after it are left (log entry 10, DESIGN CHOICE); and that ILLEGAL, which carries its word, comes back with that word
(log entry 12, DESIGN CHOICE). -/
def Obligations.DecodeOfEncodeIsIdentity : Prop :=
  ∀ i : Instr, i.wellFormed = true →
    decodeWord (encode i) = i
      ∧ ∀ rest : List Byte, decodeBytes (encodeBytes i ++ rest) = .ok (i, rest)

/-- 30_encoding.md section 3 (R107, marked derived): every one of the `2^32` words decodes to exactly one well-formed
instruction. That its encoding is that word, so that no two words decode alike, is R107's for the legal words; for the
illegal words, which R107 maps to one ILLEGAL, it is the model's choice, because ILLEGAL carries its word (log entry 12,
DESIGN CHOICE). -/
def Obligations.EveryWordDecodesToItsInstruction : Prop :=
  ∀ w : Word, (decodeWord w).wellFormed = true ∧ encode (decodeWord w) = w

/-- 30_encoding.md section 2 (R103, R104, and R102's selection): which words are which command, by mask and match, and
where the immediates stand; a word with OP 2 and a round count of 0 or 1 is illegal. -/
def Obligations.CommandWordsAreSelectedByMask : Prop :=
  ∀ w : Word,
    (w &&& 0xFF0000FF = 0x00000001 →
      ∃ ad bd, decodeWord w = .construct ad bd ∧ ad.toNat = w.toNat / 2 ^ 8 % 256 ∧ bd.toNat = w.toNat / 2 ^ 16 % 256)
    ∧ (w &&& 0xFFFF00FF = 0x00000002 → 2 ≤ w.toNat / 2 ^ 8 % 256 →
      ∃ rounds, decodeWord w = .installCipher rounds ∧ rounds.toNat = w.toNat / 2 ^ 8 % 256
        ∧ w = 0x00000002 ||| (rounds.setWidth 32 <<< 8))
    ∧ (w.toNat % 16 = 2 → w.toNat / 2 ^ 8 % 256 < 2 → decodeWord w = .illegal w)
    ∧ (decodeWord w = .encode ↔ w = 0x00000003)
    ∧ (decodeWord w = .decode ↔ w = 0x00000004)
    ∧ (decodeWord w = .maximums ↔ w = 0x00000005)
    ∧ (∀ ad bd, decodeWord w = .construct ad bd → w &&& 0xFF0000FF = 0x00000001)
    ∧ (∀ rounds, decodeWord w = .installCipher rounds → w &&& 0xFFFF00FF = 0x00000002 ∧ 2 ≤ rounds.toNat)

/-- 30_encoding.md section 3 (R106): a word is illegal exactly when one of the listed conditions on its bits holds, and it
then completes with IllegalCommand, changing nothing but STATUS.ERR (and BUSY, which completion clears). That the
completion is a step, by the engine's turn listed in the port's order or with no turn listed, is the model's choice (log
entry 2, DESIGN CHOICE); that S.pend keeps the word is log entry 4 (DEDUCED). -/
def Obligations.IllegalWordsAreThoseListed : Prop :=
  ∀ w : Word,
    (decodeWord w = .illegal w ↔
      (w.toNat % 16 = 0 ∨ 6 ≤ w.toNat % 16)
      ∨ (w.toNat / 2 ^ 4 % 16 ≠ 0 ∨ w.toNat / 2 ^ 24 ≠ 0)
      ∨ (w.toNat % 16 = 2 ∧ (w.toNat / 2 ^ 16 % 256 ≠ 0 ∨ w.toNat / 2 ^ 8 % 256 < 2))
      ∨ ((w.toNat % 16 = 3 ∨ w.toNat % 16 = 4 ∨ w.toNat % 16 = 5)
          ∧ (w.toNat / 2 ^ 8 % 256 ≠ 0 ∨ w.toNat / 2 ^ 16 % 256 ≠ 0)))
    ∧ ∀ s : State, s.pend = w → s.busy = true → decodeWord w = .illegal w →
        (s.order = [] → step s = .next { s with err := 5, busy := false })
        ∧ ∀ rest, s.order = .engine :: rest → step s = .next { s with err := 5, busy := false, order := rest }

/-- Words written out from 30_encoding.md's encodings (and the table of 95_test_vectors.md section 2.2), one or more of
every row, decode to what they stand for. -/
def Obligations.WordsOfTheSpecDecode : Prop :=
  decodeWord 0x00182801 = .construct 40 24 ∧ decodeWord 0x00FFFF01 = .construct 255 255
    ∧ decodeWord 0x00000202 = .installCipher 2 ∧ decodeWord 0x0000FF02 = .installCipher 255
    ∧ decodeWord 0x00000003 = .encode ∧ decodeWord 0x00000004 = .decode ∧ decodeWord 0x00000005 = .maximums
    ∧ decodeWord 0x00000102 = .illegal 0x00000102 ∧ decodeWord 0x01000005 = .illegal 0x01000005
    ∧ disassemble (decodeWord 0x00182801) = "construct 40, 24"
    ∧ disassemble (decodeWord 0x00000013) = ".word 0x00000013"

/-! ### The command cycle (spec/40_domain_encoder.md section 1) -/

/-- R130: a CMD write while idle sets S.pend and S.busy and nothing else, whatever the word; while busy it is ignored.
An illegal word issues like any other, and its completion reports it. -/
def Obligations.CmdWriteIssuesWhileIdle : Prop :=
  ∀ (s : State) (w : Word),
    (s.busy = false → portWrite 0x000 w s = { s with pend := w, busy := true })
    ∧ (s.busy = true → portWrite 0x000 w s = s)
    ∧ (s.busy = false → decodeWord w = .illegal w →
        ∃ t, exec (decodeWord (portWrite 0x000 w s).pend) (portWrite 0x000 w s) = .next t ∧ t.err = 5)

/-- R131: the engine's turn, while a command is pending, is `exec` of the decoded S.pend, and that ends with BUSY
clear; with no command pending it changes nothing. That the engine's turn also comes when no turn is listed is the
model's choice (log entry 2). -/
def Obligations.EngineTurnRunsTheDecodedCommand : Prop :=
  ∀ (s : State) (rest : List PortEvent),
    (s.busy = true → s.order = .engine :: rest → step s = exec (decodeWord s.pend) { s with order := rest })
    ∧ (s.busy = true → s.order = [] → step s = exec (decodeWord s.pend) s)
    ∧ (s.busy = false → s.order = .engine :: rest → step s = .next { s with order := rest })
    ∧ (s.busy = false → s.order = [] → step s = .next s)
    ∧ ∀ t, exec (decodeWord s.pend) s = .next t → t.busy = false

/-- Every instruction, in every state, completes in a next state: BUSY is clear, ERR is 0 to 5, and the operand registers
and the staging registers are as before (10_state.md R45, 60_exceptions.md sections 1 and 3). Three clauses are the
model's: that S.pend keeps its word with BUSY clear (log entry 4, DEDUCED; 93_implementation_defined.md I19 leaves it
open), and that the port's order and the replies stay (log entries 2, 3, DESIGN CHOICE). -/
def Obligations.EveryCommandCompletes : Prop :=
  ∀ (i : Instr) (s : State), ∃ t, exec i s = .next t ∧ t.busy = false ∧ t.err.toNat ≤ 5
    ∧ t.pend = s.pend ∧ t.aIn = s.aIn ∧ t.bIn = s.bIn ∧ t.cIn = s.cIn
    ∧ t.keyLen = s.keyLen ∧ t.tweakLen = s.tweakLen ∧ t.keyStage = s.keyStage ∧ t.tweakStage = s.tweakStage
    ∧ t.order = s.order ∧ t.replies = s.replies

/-! ### The commands (spec/40_domain_encoder.md section 2) -/

/-- R133: CONSTRUCT sets the domain and drops the cipher exactly when both digit counts are at least 1 and
`10^(ad + bd) < 2^W`, which for `W = 256` is a sum of at most 77; otherwise it reports InvalidDomain. Nothing else changes
in either case. Its word is `0x00000001 | bd << 16 | ad << 8`. -/
def Obligations.ConstructFollowsItsRule : Prop :=
  ∀ (ad bd : Byte) (s : State),
    (1 ≤ ad.toNat → 1 ≤ bd.toNat → 10 ^ (ad.toNat + bd.toNat) < 2 ^ 256 →
      exec (.construct ad bd) s
        = .next { s with dom := some ⟨ad, bd⟩, ctx := none, err := 0, busy := false })
    ∧ (ad.toNat = 0 ∨ bd.toNat = 0 ∨ 2 ^ 256 ≤ 10 ^ (ad.toNat + bd.toNat) →
      exec (.construct ad bd) s = .next { s with err := 1, busy := false })
    ∧ (10 ^ (ad.toNat + bd.toNat) < 2 ^ 256 ↔ ad.toNat + bd.toNat ≤ 77)
    ∧ decodeWord (0x00000001 ||| (bd.setWidth 32 <<< 16) ||| (ad.setWidth 32 <<< 8)) = .construct ad bd

/-- 40_domain_encoder.md section 2 (a part of R134) at the block's own parameters: with a domain, a key length of 1 to
64 and a tweak length of at most 64, INSTALL_CIPHER completes: it installs the staged bytes, the round count and the
radix when the round function accepts the key, and reports InvalidKey when it does not. Nothing else changes. -/
def Obligations.InstallCipherInstallsStagedContext : Prop :=
  ∀ (rounds : Byte) (s : State) (d : Domain) (key tweak : List Byte),
    s.dom = some d → 2 ≤ 10 ^ (d.aDigits.toNat + d.bDigits.toNat) →
    1 ≤ s.keyLen.toNat → s.keyLen.toNat ≤ 64 → s.tweakLen.toNat ≤ 64 →
    key = (List.range s.keyLen.toNat).map (fun k => s.keyStage.toList.getD k 0) →
    tweak = (List.range s.tweakLen.toNat).map (fun k => s.tweakStage.toList.getD k 0) →
    exec (.installCipher rounds) s = .next
      (if Config.params.rfKeyOk key = true then
        { s with
          ctx := some ⟨key, tweak, rounds, ceilSqrt (10 ^ (d.aDigits.toNat + d.bDigits.toNat))⟩
          err := 0
          busy := false }
      else { s with err := 2, busy := false })

/-- R134 for any parameters of R6: what INSTALL_CIPHER rejects, in the order of its checks, and what it installs; nothing
else changes. `exec` is the block's own parameters' case. Its word is `0x00000002 | rounds << 8`, and 0 or 1 rounds make
that word illegal. -/
def Obligations.InstallCipherChecksInOrder : Prop :=
  ∀ (p : Params) (rounds : Byte) (s : State),
    (exec (.installCipher rounds) s = installCipherWith Config.params rounds s)
    ∧ (2 ≤ rounds.toNat → decodeWord (0x00000002 ||| (rounds.setWidth 32 <<< 8)) = .installCipher rounds)
    ∧ (rounds.toNat < 2 → decodeWord (0x00000002 ||| (rounds.setWidth 32 <<< 8))
        = .illegal (0x00000002 ||| (rounds.setWidth 32 <<< 8)))
    ∧ (s.dom = none → installCipherWith p rounds s = .next { s with err := 1, busy := false })
    ∧ (∀ d, s.dom = some d → 10 ^ (d.aDigits.toNat + d.bDigits.toNat) < 2 →
        installCipherWith p rounds s = .next { s with err := 1, busy := false })
    ∧ (∀ d, s.dom = some d → 2 ≤ 10 ^ (d.aDigits.toNat + d.bDigits.toNat) →
        s.keyLen.toNat = 0 ∨ 64 < s.keyLen.toNat ∨ 64 < s.tweakLen.toNat
          ∨ p.rfKeyOk (s.keyStage.toList.take s.keyLen.toNat) = false →
        installCipherWith p rounds s = .next { s with err := 2, busy := false })
    ∧ (∀ d, s.dom = some d → 2 ≤ 10 ^ (d.aDigits.toNat + d.bDigits.toNat) →
        1 ≤ s.keyLen.toNat → s.keyLen.toNat ≤ 64 → s.tweakLen.toNat ≤ 64 →
        p.rfKeyOk (s.keyStage.toList.take s.keyLen.toNat) = true →
        ∃ c, installCipherWith p rounds s = .next { s with ctx := some c, err := 0, busy := false }
          ∧ c.key = (List.range s.keyLen.toNat).map (fun k => s.keyStage.toList.getD k 0)
          ∧ c.tweak = (List.range s.tweakLen.toNat).map (fun k => s.tweakStage.toList.getD k 0)
          ∧ c.rounds = rounds ∧ c.r = ceilSqrt (10 ^ (d.aDigits.toNat + d.bDigits.toNat)))

/-- 40_domain_encoder.md sections 2 and 3 (R135, R139) without a cipher: ENCODE of operands in range writes `a * 10^bd
+ b`, below `N`, to C_OUT and 0 to CW_COUNT, and changes nothing else but ERR and BUSY. -/
def Obligations.EncodeWithoutCipherPairs : Prop :=
  ∀ (s : State) (d : Domain), s.dom = some d → d.Legal → s.ctx = none →
    s.aIn.toNat ≤ 10 ^ d.aDigits.toNat - 1 → s.bIn.toNat ≤ 10 ^ d.bDigits.toNat - 1 →
    ∃ t, exec .encode s = .next t ∧ t = { s with cOut := t.cOut, cw := 0, err := 0, busy := false }
      ∧ t.cOut.toNat = s.aIn.toNat * 10 ^ d.bDigits.toNat + s.bIn.toNat
      ∧ t.cOut.toNat < 10 ^ (d.aDigits.toNat + d.bDigits.toNat)

/-- R135 for any parameters within R7, in every state whose domain is legal: the word, the checks in their order, the plain
value, and with a cipher FWD's value and walk count or InternalError where the guard trips. Nothing else changes. `exec` is
the block's own parameters' case. -/
def Obligations.EncodeFollowsItsRule : Prop :=
  ∀ (p : Params) (s : State), p.Wf →
    decodeWord 0x00000003 = .encode ∧ exec .encode s = encodeWith Config.params s
    ∧ (s.dom = none → encodeWith p s = .next { s with err := 1, busy := false })
    ∧ ∀ d, s.dom = some d → d.Legal →
      (10 ^ d.aDigits.toNat - 1 < s.aIn.toNat ∨ 10 ^ d.bDigits.toNat - 1 < s.bIn.toNat →
        encodeWith p s = .next { s with err := 3, busy := false })
      ∧ (s.aIn.toNat ≤ 10 ^ d.aDigits.toNat - 1 → s.bIn.toNat ≤ 10 ^ d.bDigits.toNat - 1 →
        (s.ctx = none →
          ∃ t, encodeWith p s = .next t ∧ t = { s with cOut := t.cOut, cw := 0, err := 0, busy := false }
            ∧ t.cOut.toNat = s.aIn.toNat * 10 ^ d.bDigits.toNat + s.bIn.toNat)
        ∧ ∀ c, s.ctx = some c →
          (∀ y k, fwd p c (10 ^ (d.aDigits.toNat + d.bDigits.toNat))
              (s.aIn.toNat * 10 ^ d.bDigits.toNat + s.bIn.toNat) = some (y, k) →
            ∃ t, encodeWith p s = .next t ∧ t = { s with cOut := t.cOut, cw := t.cw, err := 0, busy := false }
              ∧ t.cOut.toNat = y ∧ t.cw.toNat = k ∧ y < 10 ^ (d.aDigits.toNat + d.bDigits.toNat))
          ∧ (fwd p c (10 ^ (d.aDigits.toNat + d.bDigits.toNat))
              (s.aIn.toNat * 10 ^ d.bDigits.toNat + s.bIn.toNat) = none →
            encodeWith p s = .next { s with err := 4, busy := false }))

/-- 40_domain_encoder.md sections 2 and 3 (R136, R140) without a cipher: DECODE of `c < N` writes `c div 10^bd` and `c
mod 10^bd` to A_OUT and B_OUT and 0 to CW_COUNT, and changes nothing else but ERR and BUSY. -/
def Obligations.DecodeWithoutCipherUnpairs : Prop :=
  ∀ (s : State) (d : Domain), s.dom = some d → d.Legal → s.ctx = none →
    s.cIn.toNat < 10 ^ (d.aDigits.toNat + d.bDigits.toNat) →
    ∃ t, exec .decode s = .next t
      ∧ t = { s with aOut := t.aOut, bOut := t.bOut, cw := 0, err := 0, busy := false }
      ∧ t.aOut.toNat = s.cIn.toNat / 10 ^ d.bDigits.toNat ∧ t.bOut.toNat = s.cIn.toNat % 10 ^ d.bDigits.toNat
      ∧ t.aOut.toNat < 10 ^ d.aDigits.toNat

/-- R136 for any parameters within R7, in every state whose domain is legal: the word, the checks in their order, and the two
fields of the value, of INV's value with a cipher, with its walk count, or InternalError where the guard trips. Nothing else
changes. `exec` is the block's own parameters' case. -/
def Obligations.DecodeFollowsItsRule : Prop :=
  ∀ (p : Params) (s : State), p.Wf →
    decodeWord 0x00000004 = .decode ∧ exec .decode s = decodeWith Config.params s
    ∧ (s.dom = none → decodeWith p s = .next { s with err := 1, busy := false })
    ∧ ∀ d, s.dom = some d → d.Legal →
      (10 ^ (d.aDigits.toNat + d.bDigits.toNat) ≤ s.cIn.toNat →
        decodeWith p s = .next { s with err := 3, busy := false })
      ∧ (s.cIn.toNat < 10 ^ (d.aDigits.toNat + d.bDigits.toNat) →
        (s.ctx = none →
          ∃ t, decodeWith p s = .next t
            ∧ t = { s with aOut := t.aOut, bOut := t.bOut, cw := 0, err := 0, busy := false }
            ∧ t.aOut.toNat = s.cIn.toNat / 10 ^ d.bDigits.toNat ∧ t.bOut.toNat = s.cIn.toNat % 10 ^ d.bDigits.toNat
            ∧ t.aOut.toNat < 10 ^ d.aDigits.toNat ∧ t.bOut.toNat < 10 ^ d.bDigits.toNat)
        ∧ ∀ c, s.ctx = some c →
          (∀ y k, inv p c (10 ^ (d.aDigits.toNat + d.bDigits.toNat)) s.cIn.toNat = some (y, k) →
            ∃ t, decodeWith p s = .next t
              ∧ t = { s with aOut := t.aOut, bOut := t.bOut, cw := t.cw, err := 0, busy := false }
              ∧ t.aOut.toNat = y / 10 ^ d.bDigits.toNat ∧ t.bOut.toNat = y % 10 ^ d.bDigits.toNat ∧ t.cw.toNat = k
              ∧ t.aOut.toNat < 10 ^ d.aDigits.toNat ∧ t.bOut.toNat < 10 ^ d.bDigits.toNat)
          ∧ (inv p c (10 ^ (d.aDigits.toNat + d.bDigits.toNat)) s.cIn.toNat = none →
            decodeWith p s = .next { s with err := 4, busy := false }))

/-- 41_feistel_cipher.md section 4 (R183, marked derived) at the commands: with an even digit sum and a cipher of that
domain, ENCODE and DECODE of operands in range complete with OK after one application of T or Tinv, whatever the
round function and the guard are. -/
def Obligations.EvenDigitSumNeverWalks : Prop :=
  ∀ (s : State) (d : Domain) (c : CipherContext), s.dom = some d → d.Legal →
    (d.aDigits.toNat + d.bDigits.toNat) % 2 = 0 → s.ctx = some c →
    c.r = ceilSqrt (10 ^ (d.aDigits.toNat + d.bDigits.toNat)) →
    (s.aIn.toNat ≤ 10 ^ d.aDigits.toNat - 1 → s.bIn.toNat ≤ 10 ^ d.bDigits.toNat - 1 →
      ∃ t, exec .encode s = .next t ∧ t.err = 0 ∧ t.cw = 1
        ∧ t.cOut.toNat = transformT Config.params.rf c (s.aIn.toNat * 10 ^ d.bDigits.toNat + s.bIn.toNat))
    ∧ (s.cIn.toNat < 10 ^ (d.aDigits.toNat + d.bDigits.toNat) →
      ∃ t, exec .decode s = .next t ∧ t.err = 0 ∧ t.cw = 1
        ∧ t.aOut.toNat * 10 ^ d.bDigits.toNat + t.bOut.toNat = transformTinv Config.params.rf c s.cIn.toNat)

/-- R137: MAXIMUMS writes `a_max` and `b_max` to A_OUT and B_OUT, with a cipher or without, and changes nothing else but
ERR and BUSY; with no domain it reports InvalidDomain. Its word is `0x00000005`. -/
def Obligations.MaximumsFollowsItsRule : Prop :=
  ∀ s : State,
    decodeWord 0x00000005 = .maximums
    ∧ (∀ d, s.dom = some d → d.Legal →
      ∃ t, exec .maximums s = .next t ∧ t = { s with aOut := t.aOut, bOut := t.bOut, err := 0, busy := false }
        ∧ t.aOut.toNat = 10 ^ d.aDigits.toNat - 1 ∧ t.bOut.toNat = 10 ^ d.bDigits.toNat - 1)
    ∧ (s.dom = none → exec .maximums s = .next { s with err := 1, busy := false })

/-- R138: every word that R102 to R104 do not match decodes to ILLEGAL, and ILLEGAL writes ERR = 5 and changes nothing
else but BUSY, in every state and for every word. -/
def Obligations.IllegalFollowsItsRule : Prop :=
  ∀ w : Word,
    (w &&& 0xFF0000FF ≠ 0x00000001 → ¬ (w &&& 0xFFFF00FF = 0x00000002 ∧ 2 ≤ w.toNat / 2 ^ 8 % 256) →
      w ≠ 0x00000003 → w ≠ 0x00000004 → w ≠ 0x00000005 → decodeWord w = .illegal w)
    ∧ ∀ s : State, exec (.illegal w) s = .next { s with err := 5, busy := false }

/-- 40_domain_encoder.md section 4 (R144, marked derived): with no cipher, ENCODE of `(a_max, b_max)` gives `N - 1`; of
`(a_max + 1, 0)` and of `(0, b_max + 1)` it reports OutOfRange. -/
def Obligations.EncodeAtTheDomainBoundary : Prop :=
  ∀ (s : State) (d : Domain), s.dom = some d → d.Legal → s.ctx = none →
    (s.aIn.toNat = 10 ^ d.aDigits.toNat - 1 → s.bIn.toNat = 10 ^ d.bDigits.toNat - 1 →
      ∃ t, exec .encode s = .next t ∧ t.err = 0
        ∧ t.cOut.toNat = 10 ^ (d.aDigits.toNat + d.bDigits.toNat) - 1)
    ∧ (s.aIn.toNat = 10 ^ d.aDigits.toNat → s.bIn.toNat = 0 →
      exec .encode s = .next { s with err := 3, busy := false })
    ∧ (s.aIn.toNat = 0 → s.bIn.toNat = 10 ^ d.bDigits.toNat →
      exec .encode s = .next { s with err := 3, busy := false })

/-! ### Errors (spec/60_exceptions.md) -/

/-- R211 to R215: each status code is written by exactly the listed commands under the listed conditions, and records
nothing but the code. -/
def Obligations.StatusCodesHaveExactlyTheirCauses : Prop :=
  ∀ (i : Instr) (s t : State), exec i s = .next t →
    (t.err = 1 ↔
      (∃ ad bd, i = .construct ad bd
        ∧ (ad.toNat = 0 ∨ bd.toNat = 0 ∨ 2 ^ 256 ≤ 10 ^ (ad.toNat + bd.toNat)))
      ∨ (((∃ rounds, i = .installCipher rounds) ∨ i = .encode ∨ i = .decode ∨ i = .maximums) ∧ s.dom = none)
      ∨ (∃ rounds d, i = .installCipher rounds ∧ s.dom = some d
        ∧ 10 ^ (d.aDigits.toNat + d.bDigits.toNat) < 2))
    ∧ (t.err = 2 ↔ ∃ rounds d, i = .installCipher rounds ∧ s.dom = some d
        ∧ 2 ≤ 10 ^ (d.aDigits.toNat + d.bDigits.toNat)
        ∧ (s.keyLen.toNat = 0 ∨ 64 < s.keyLen.toNat ∨ 64 < s.tweakLen.toNat
          ∨ Config.params.rfKeyOk (s.keyStage.toList.take s.keyLen.toNat) = false))
    ∧ (t.err = 3 ↔ ∃ d, s.dom = some d
        ∧ ((i = .encode ∧ (10 ^ d.aDigits.toNat - 1 < s.aIn.toNat ∨ 10 ^ d.bDigits.toNat - 1 < s.bIn.toNat))
          ∨ (i = .decode ∧ 10 ^ (d.aDigits.toNat + d.bDigits.toNat) ≤ s.cIn.toNat)))
    ∧ (t.err = 4 ↔ ∃ d c, s.dom = some d ∧ s.ctx = some c
        ∧ ((i = .encode ∧ s.aIn.toNat ≤ 10 ^ d.aDigits.toNat - 1 ∧ s.bIn.toNat ≤ 10 ^ d.bDigits.toNat - 1
            ∧ ∀ j, 1 ≤ j → j ≤ Config.params.walkLimit → 10 ^ (d.aDigits.toNat + d.bDigits.toNat)
                ≤ (transformT Config.params.rf c)^[j] (s.aIn.toNat * 10 ^ d.bDigits.toNat + s.bIn.toNat))
          ∨ (i = .decode ∧ s.cIn.toNat < 10 ^ (d.aDigits.toNat + d.bDigits.toNat)
            ∧ ∀ j, 1 ≤ j → j ≤ Config.params.walkLimit → 10 ^ (d.aDigits.toNat + d.bDigits.toNat)
                ≤ (transformTinv Config.params.rf c)^[j] s.cIn.toNat)))
    ∧ (t.err = 5 ↔ ∃ w, i = .illegal w)
    ∧ (t.err ≠ 0 → t = { s with err := t.err, busy := false })

/-- R217: a command that ends with an error code changes exactly S.err and S.busy. -/
def Obligations.ErrorChangesOnlyErrAndBusy : Prop :=
  ∀ (i : Instr) (s t : State), exec i s = .next t → t.err ≠ 0 → t = { s with err := t.err, busy := false }

/-- 60_exceptions.md section 3 (R220): ERR is not sticky. What a command does, and the code it leaves, do not depend on
the code the one before it left. -/
def Obligations.ErrIsNotSticky : Prop :=
  ∀ (i : Instr) (s : State) (e : BitVec 4), exec i { s with err := e } = exec i s

/-- What each command leaves unchanged, read through the port: every offset outside STATUS and the registers its rule
says it writes reads as before (R133 to R138; 10_state.md R40, R46). -/
def Obligations.CommandsChangeOnlyTheirRegisters : Prop :=
  ∀ (i : Instr) (s t : State), exec i s = .next t → ∀ off : Offset, off.toNat ≠ 0x004 →
    match i with
    | .construct _ _ => off.toNat ≠ 0x008 → portRead off t = portRead off s
    | .installCipher _ => off.toNat ≠ 0x008 → portRead off t = portRead off s
    | .encode => off.toNat ≠ 0x00C → ¬ (0x1C0 ≤ off.toNat ∧ off.toNat < 0x1E0) → portRead off t = portRead off s
    | .decode => off.toNat ≠ 0x00C → ¬ (0x180 ≤ off.toNat ∧ off.toNat < 0x1C0) → portRead off t = portRead off s
    | .maximums => ¬ (0x180 ≤ off.toNat ∧ off.toNat < 0x1C0) → portRead off t = portRead off s
    | .illegal _ => portRead off t = portRead off s

/-! ### The register port (spec/10_state.md section 2, spec/20_memory.md) -/

/-- The register map of R36 as a relation: at an aligned offset stands the register with that offset, and no other. -/
def Obligations.RegisterMapIsOneToOne : Prop :=
  (∀ (off : Offset) (r : Reg), regAt off = some r ↔ r.offset = off.toNat)
  ∧ (∀ r : Reg, r.offset % 4 = 0 ∧ r.offset < 0x1E0)

/-- R38: the fields of STATUS, bit by bit; a write of STATUS is ignored; no write of any register changes a field other
than BUSY, so while a command is pending they show the values from before it; STATUS is 0 after reset. -/
def Obligations.StatusShowsItsFields : Prop :=
  (∀ s : State,
    (portRead 0x004 s).getLsbD 0 = s.busy ∧ (portRead 0x004 s).getLsbD 1 = s.dom.isSome
    ∧ (portRead 0x004 s).getLsbD 2 = s.ctx.isSome ∧ (portRead 0x004 s).toNat / 2 ^ 3 % 32 = 0
    ∧ (portRead 0x004 s).toNat / 2 ^ 8 % 16 = s.err.toNat ∧ (portRead 0x004 s).toNat / 2 ^ 12 = 0
    ∧ (∀ v, portWrite 0x004 v s = s)
    ∧ ∀ off v, (portRead 0x004 (portWrite off v s)).toNat / 2 = (portRead 0x004 s).toNat / 2)
  ∧ portRead 0x004 State.reset = 0

/-- R39: the fields of CONFIG; a write of CONFIG is ignored; CONFIG is 0 after reset. -/
def Obligations.ConfigShowsItsFields : Prop :=
  (∀ s : State,
    (∀ d, s.dom = some d → (portRead 0x008 s).toNat % 256 = d.aDigits.toNat
      ∧ (portRead 0x008 s).toNat / 2 ^ 8 % 256 = d.bDigits.toNat)
    ∧ (s.dom = none → (portRead 0x008 s).toNat % 65536 = 0)
    ∧ (∀ c, s.ctx = some c → (portRead 0x008 s).toNat / 2 ^ 16 % 256 = c.rounds.toNat)
    ∧ (s.ctx = none → (portRead 0x008 s).toNat / 2 ^ 16 % 256 = 0)
    ∧ (portRead 0x008 s).toNat / 2 ^ 24 = 0
    ∧ ∀ v, portWrite 0x008 v s = s)
  ∧ portRead 0x008 State.reset = 0

/-- R41, and R42's register: a write of KEY_LEN or TWEAK_LEN stores bits [6:0] and changes nothing else; it reads back with
the reserved bits 0; a stored key length of 0 or above 64, and a stored tweak length above 64, makes a later
INSTALL_CIPHER in a legal domain fail with InvalidKey; both are 0 after reset. -/
def Obligations.LengthRegistersKeepSevenBits : Prop :=
  (∀ (s : State) (v : Word), s.busy = false →
    (∃ t, portWrite 0x010 v s = t ∧ t = { s with keyLen := t.keyLen } ∧ t.keyLen.toNat = v.toNat % 128
      ∧ (portRead 0x010 t).toNat = v.toNat % 128
      ∧ (v.toNat % 128 = 0 ∨ 64 < v.toNat % 128 → ∀ rounds d, t.dom = some d → d.Legal →
          exec (.installCipher rounds) t = .next { t with err := 2, busy := false }))
    ∧ (∃ t, portWrite 0x014 v s = t ∧ t = { s with tweakLen := t.tweakLen } ∧ t.tweakLen.toNat = v.toNat % 128
      ∧ (portRead 0x014 t).toNat = v.toNat % 128
      ∧ (64 < v.toNat % 128 → ∀ rounds d, t.dom = some d → d.Legal →
          exec (.installCipher rounds) t = .next { t with err := 2, busy := false })))
  ∧ portRead 0x010 State.reset = 0 ∧ portRead 0x014 State.reset = 0

/-- R43: a write of KEY_DATAj sets staged key bytes `4j .. 4j+3` from the word's byte lanes and changes nothing else;
a read returns 0. -/
def Obligations.KeyDataWritesItsBytes : Prop :=
  ∀ (s : State) (j : Fin 16) (v : Word), s.busy = false →
    ∃ t, portWrite (BitVec.ofNat 12 (0x040 + 4 * j.val)) v s = t ∧ t = { s with keyStage := t.keyStage }
      ∧ (∀ k : Fin 64, k.val / 4 = j.val → t.keyStage[k].toNat = v.toNat / 2 ^ (8 * (k.val % 4)) % 256)
      ∧ (∀ k : Fin 64, k.val / 4 ≠ j.val → t.keyStage[k] = s.keyStage[k])
      ∧ portRead (BitVec.ofNat 12 (0x040 + 4 * j.val)) t = 0

/-- R44: a write of TWEAK_DATAj sets staged tweak bytes `4j .. 4j+3` from the word's byte lanes and changes nothing else;
a read returns the written word. -/
def Obligations.TweakDataWritesItsBytes : Prop :=
  ∀ (s : State) (j : Fin 16) (v : Word), s.busy = false →
    ∃ t, portWrite (BitVec.ofNat 12 (0x080 + 4 * j.val)) v s = t ∧ t = { s with tweakStage := t.tweakStage }
      ∧ (∀ k : Fin 64, k.val / 4 = j.val → t.tweakStage[k].toNat = v.toNat / 2 ^ (8 * (k.val % 4)) % 256)
      ∧ (∀ k : Fin 64, k.val / 4 ≠ j.val → t.tweakStage[k] = s.tweakStage[k])
      ∧ portRead (BitVec.ofNat 12 (0x080 + 4 * j.val)) t = v

/-- R45: a write of word `j` of A_IN, B_IN or C_IN replaces that word of the register and changes nothing else. -/
def Obligations.OperandWordWritesItsBits : Prop :=
  ∀ (s : State) (j : Fin 8) (v : Word), s.busy = false →
    (∃ t, portWrite (BitVec.ofNat 12 (0x100 + 4 * j.val)) v s = t ∧ t = { s with aIn := t.aIn }
      ∧ ∀ k : Fin 8, t.aIn.toNat / 2 ^ (32 * k.val) % 2 ^ 32
          = if k = j then v.toNat else s.aIn.toNat / 2 ^ (32 * k.val) % 2 ^ 32)
    ∧ (∃ t, portWrite (BitVec.ofNat 12 (0x120 + 4 * j.val)) v s = t ∧ t = { s with bIn := t.bIn }
      ∧ ∀ k : Fin 8, t.bIn.toNat / 2 ^ (32 * k.val) % 2 ^ 32
          = if k = j then v.toNat else s.bIn.toNat / 2 ^ (32 * k.val) % 2 ^ 32)
    ∧ (∃ t, portWrite (BitVec.ofNat 12 (0x140 + 4 * j.val)) v s = t ∧ t = { s with cIn := t.cIn }
      ∧ ∀ k : Fin 8, t.cIn.toNat / 2 ^ (32 * k.val) % 2 ^ 32
          = if k = j then v.toNat else s.cIn.toNat / 2 ^ (32 * k.val) % 2 ^ 32)

/-- R47: the value of each wide register is the sum of the eight words the port reads, word 0 the least significant. -/
def Obligations.WideValueIsTheSumOfItsWords : Prop :=
  ∀ s : State,
    s.aIn.toNat = ∑ j ∈ Finset.range 8, (portRead (BitVec.ofNat 12 (0x100 + 4 * j)) s).toNat * 2 ^ (32 * j)
    ∧ s.bIn.toNat = ∑ j ∈ Finset.range 8, (portRead (BitVec.ofNat 12 (0x120 + 4 * j)) s).toNat * 2 ^ (32 * j)
    ∧ s.cIn.toNat = ∑ j ∈ Finset.range 8, (portRead (BitVec.ofNat 12 (0x140 + 4 * j)) s).toNat * 2 ^ (32 * j)
    ∧ s.aOut.toNat = ∑ j ∈ Finset.range 8, (portRead (BitVec.ofNat 12 (0x180 + 4 * j)) s).toNat * 2 ^ (32 * j)
    ∧ s.bOut.toNat = ∑ j ∈ Finset.range 8, (portRead (BitVec.ofNat 12 (0x1A0 + 4 * j)) s).toNat * 2 ^ (32 * j)
    ∧ s.cOut.toNat = ∑ j ∈ Finset.range 8, (portRead (BitVec.ofNat 12 (0x1C0 + 4 * j)) s).toNat * 2 ^ (32 * j)

/-- R75: a read at an admitted offset answers the register's value and changes nothing of the block. CMD, KEY_DATA and the
reserved offsets read 0, CW_COUNT is S.cw (R40), the length registers are S.key_len and S.tweak_len (R41, R42), and
TWEAK_DATAj shows its four staged bytes (R44); STATUS, CONFIG and the wide registers have statements of their own (R38,
R39, R47). The reply's place in State is the model's (log entry 3). Where STATUS would show a reserved ERR code the read
faults (R210; 93_implementation_defined.md I17). -/
def Obligations.ReadsHaveNoSideEffect : Prop :=
  ∀ (s : State) (off : Offset) (rest : List PortEvent), s.order = .access ⟨.read, off, 4, 1⟩ :: rest →
    off.toNat % 4 = 0 →
    (s.err.toNat ≤ 5 ∨ off.toNat ≠ 0x004 →
      step s = .next { s with order := rest, replies := ⟨off, portRead off s⟩ :: s.replies })
    ∧ (5 < s.err.toNat → off.toNat = 0x004 → step s = .fault .reservedErrCode)
    ∧ (off.toNat = 0 ∨ (0x018 ≤ off.toNat ∧ off.toNat < 0x080) ∨ (0x0C0 ≤ off.toNat ∧ off.toNat < 0x100)
        ∨ (0x160 ≤ off.toNat ∧ off.toNat < 0x180) ∨ 0x1E0 ≤ off.toNat → portRead off s = 0)
    ∧ portRead 0x00C s = s.cw
    ∧ (portRead 0x010 s).toNat = s.keyLen.toNat ∧ (portRead 0x014 s).toNat = s.tweakLen.toNat
    ∧ ∀ (j : Fin 16) (k : Fin 64), k.val / 4 = j.val →
        (portRead (BitVec.ofNat 12 (0x080 + 4 * j.val)) s).toNat / 2 ^ (8 * (k.val % 4)) % 256 = s.tweakStage[k].toNat

/-- R76: a write at an admitted offset is ignored while busy; while idle the read-only registers and the reserved
offsets ignore it. What the other registers do with it is in the statements on R130 and R41 to R45. -/
def Obligations.WritesIgnoredWhereTheRuleSays : Prop :=
  ∀ (s : State) (off : Offset) (v : Word) (rest : List PortEvent),
    s.order = .access ⟨.write v, off, 4, 1⟩ :: rest → off.toNat % 4 = 0 →
    (s.busy = true → step s = .next { s with order := rest })
    ∧ (s.busy = false →
        off.toNat = 0x004 ∨ off.toNat = 0x008 ∨ off.toNat = 0x00C
          ∨ (0x018 ≤ off.toNat ∧ off.toNat < 0x040) ∨ (0x0C0 ≤ off.toNat ∧ off.toNat < 0x100)
          ∨ 0x160 ≤ off.toNat →
        step s = .next { s with order := rest })
    ∧ step s = .next (portWrite off v { s with order := rest })

/-- R72 (and R250 for an access during reset): an access that is not one aligned 32-bit beat has no step. -/
def Obligations.OtherAccessesAreRefused : Prop :=
  ∀ (s : State) (a : Access) (rest : List PortEvent),
    (s.order = .access a :: rest → (a.bytes ≠ 4 ∨ a.beats ≠ 1 ∨ a.off.toNat % 4 ≠ 0 ↔
      step s = .refused .accessNotAdmitted))
    ∧ (s.order = .accessInReset a :: rest → step s = .refused .accessDuringReset)

/-- 20_memory.md section 2 (R78, marked derived): repeating a write to any register but CMD has no further effect. -/
def Obligations.RepeatedWritesAreIdempotent : Prop :=
  ∀ (s : State) (off : Offset) (v : Word), off.toNat ≠ 0 → portWrite off v (portWrite off v s) = portWrite off v s

/-- R43, R222, R226: the key bytes, staged and installed, cannot be read: two states that differ in nothing else read
alike at every offset. -/
def Obligations.KeyBytesAreNotReadable : Prop :=
  ∀ (s : State) (stage : Vector Byte 64) (c : CipherContext) (key : List Byte) (off : Offset),
    portRead off { s with keyStage := stage } = portRead off s
    ∧ portRead off { s with ctx := some { c with key := key } } = portRead off { s with ctx := some c }

/-! ### The whole machine -/

/-- 10_state.md section 4 (R50): the reset value of every component of S, in the state the model starts from and after a
reset that is applied at any time, with a command pending too (70_reset_and_hazards.md section 1). The step's clause rests
on the model's choices (DESIGN CHOICE): where reset stands among the port's turns (log entry 2), that it is one turn (log
entry 7), and that the host's replies are kept over it (log entry 3). -/
def Obligations.ResetRestoresEveryComponent : Prop :=
  ∀ (s : State) (rest : List PortEvent), s.order = .reset :: rest →
    (∃ t, step s = .next t ∧ t = { State.reset with order := rest, replies := s.replies })
    ∧ State.reset.busy = false ∧ State.reset.pend = 0 ∧ State.reset.err = 0 ∧ State.reset.dom = none
    ∧ State.reset.ctx = none ∧ State.reset.cw = 0 ∧ State.reset.keyLen = 0 ∧ State.reset.tweakLen = 0
    ∧ (∀ k : Fin 64, State.reset.keyStage[k] = 0 ∧ State.reset.tweakStage[k] = 0)
    ∧ State.reset.aIn = 0 ∧ State.reset.bIn = 0 ∧ State.reset.cIn = 0
    ∧ State.reset.aOut = 0 ∧ State.reset.bOut = 0 ∧ State.reset.cOut = 0

/-- The invariant holds right after reset. -/
def Obligations.ResetMeetsTheInvariant : Prop := State.reset.Inv

/-- Every step keeps the invariant: a configured domain is legal, an installed context fits the domain (its key accepted,
its lengths and round count in range, its radix the domain's), CW_COUNT is within the guard and ERR is a defined code
(10_state.md sections 1 and 2; 93_implementation_defined.md I17). -/
def Obligations.EveryStepKeepsTheInvariant : Prop :=
  ∀ s t : State, s.Inv → step s = .next t → t.Inv

/-- In a state that meets the invariant, a step faults never, and is refused only for an access that is not admitted or
comes during reset. -/
def Obligations.GoodStatesNeverFault : Prop :=
  ∀ s : State, s.Inv → (∀ e ∈ s.order, e.allowed = true) → SafeStep s

/-- R35: BUSY is set only by an accepted CMD write, which S.pend then holds, and cleared only by the engine's completion
or by reset; while it stays set, S.pend stays. -/
def Obligations.BusyChangesOnlyByIssueCompletionReset : Prop :=
  ∀ s t : State, step s = .next t →
    (s.busy = false → t.busy = true →
      ∃ w rest, s.order = .access ⟨.write w, 0x000, 4, 1⟩ :: rest ∧ t = { s with pend := w, busy := true, order := rest })
    ∧ (s.busy = true → t.busy = false →
      s.order = [] ∨ (∃ rest, s.order = .engine :: rest) ∨ (∃ rest, s.order = .reset :: rest))
    ∧ (s.busy = true → t.busy = true → t.pend = s.pend)

/-- 20_memory.md section 3 and 70_reset_and_hazards.md section 2: while a command is pending, a host access changes
nothing of the block, so the operands at completion are those at issue and no partial result is ever visible. -/
def Obligations.NothingMovesWhileBusy : Prop :=
  ∀ (s t : State) (a : Access) (rest : List PortEvent), s.busy = true → s.order = .access a :: rest →
    step s = .next t → t = { s with order := rest, replies := t.replies }

/-- 10_state.md section 1: S.dom is written only by CONSTRUCT and reset, and S.ctx only by INSTALL_CIPHER, CONSTRUCT and
reset (R32, R33). -/
def Obligations.OnlySetupWritesDomainAndContext : Prop :=
  ∀ s t : State, step s = .next t →
    (t.dom ≠ s.dom → (∃ rest, s.order = .reset :: rest)
      ∨ (s.busy = true ∧ ∃ ad bd, decodeWord s.pend = .construct ad bd))
    ∧ (t.ctx ≠ s.ctx → (∃ rest, s.order = .reset :: rest)
      ∨ (s.busy = true ∧ ((∃ ad bd, decodeWord s.pend = .construct ad bd)
          ∨ ∃ rounds, decodeWord s.pend = .installCipher rounds)))

/-- 70_reset_and_hazards.md section 3: an issued command completes. After any number of admitted host accesses, none of
which it feels, one more step runs it on the registers it was issued with. That the engine's turn comes when the
listed accesses are done is the model's form of the spec's weak fairness (log entry 2). -/
def Obligations.IssuedCommandCompletesAfterAnyAccesses : Prop :=
  ∀ s : State, s.busy = true → s.err.toNat ≤ 5 → (∀ e ∈ s.order, ∃ a, e = .access a ∧ a.admitted = true) →
    ∃ (rs : List ReadReply) (t : State),
      Host.Core.run core (s.order.length + 1) s = .next t
      ∧ exec (decodeWord s.pend) { s with order := [], replies := rs } = .next t ∧ t.busy = false

/-! ### Host notation (spec/30_encoding.md R110) -/

/-- The eight accesses of `wrw` load an operand register with the whole value, and `rdw` reads a wide register's
value back. -/
def Obligations.WrwAndRdwCarryWholeValues : Prop :=
  ∀ (s : State) (v : Wide) (rest : List PortEvent), s.busy = false →
    Host.Core.run core 8 { s with order := wrw .aIn v ++ rest } = .next { s with aIn := v, order := rest }
    ∧ Host.Core.run core 8 { s with order := wrw .bIn v ++ rest } = .next { s with bIn := v, order := rest }
    ∧ Host.Core.run core 8 { s with order := wrw .cIn v ++ rest } = .next { s with cIn := v, order := rest }
    ∧ ∀ x : WideReg, ∃ t, Host.Core.run core 8 { s with order := rdw x ++ rest } = .next t
        ∧ t = { s with order := rest, replies := t.replies }
        ∧ valueOfWords ((t.replies.take 8).reverse.map (·.value)) = (s.getWide x).toNat

/-- `setkey` and `settweak` stage exactly the given bytes: INSTALL_CIPHER would take them as its key and its tweak. -/
def Obligations.SetkeyAndSettweakStageTheirBytes : Prop :=
  ∀ (s : State) (bytes : List Byte) (rest : List PortEvent), s.busy = false → bytes.length ≤ 64 →
    (∃ t, Host.Core.run core (setkey bytes).length { s with order := setkey bytes ++ rest } = .next t
      ∧ t = { s with keyLen := t.keyLen, keyStage := t.keyStage, order := rest }
      ∧ t.keyLen.toNat = bytes.length ∧ t.keyStage.toList.take t.keyLen.toNat = bytes)
    ∧ (∃ t, Host.Core.run core (settweak bytes).length { s with order := settweak bytes ++ rest } = .next t
      ∧ t = { s with tweakLen := t.tweakLen, tweakStage := t.tweakStage, order := rest }
      ∧ t.tweakLen.toNat = bytes.length ∧ t.tweakStage.toList.take t.tweakLen.toNat = bytes)

/-! ### The pairing and the cipher (spec/40_domain_encoder.md sections 3, 4; spec/41_feistel_cipher.md) -/

/-- 40_domain_encoder.md section 4 (R141, marked derived): `pair` is a bijection from the Pairs onto `[0, N)` and
`unpair` is its inverse. -/
def Obligations.PairIsABijection : Prop :=
  ∀ d : Domain,
    (∀ a b : Nat, a < 10 ^ d.aDigits.toNat → b < 10 ^ d.bDigits.toNat →
      pair d a b < 10 ^ (d.aDigits.toNat + d.bDigits.toNat) ∧ unpair d (pair d a b) = (a, b))
    ∧ (∀ c : Nat, c < 10 ^ (d.aDigits.toNat + d.bDigits.toNat) →
      (unpair d c).1 < 10 ^ d.aDigits.toNat ∧ (unpair d c).2 < 10 ^ d.bDigits.toNat
        ∧ pair d (unpair d c).1 (unpair d c).2 = c)

/-- 40_domain_encoder.md section 4 (R142, marked derived): the decimal digits of `pair(a, b)` are those of `b` and, above
`bd` digits, those of `a`. -/
def Obligations.PairConcatenatesDecimalDigits : Prop :=
  ∀ (d : Domain) (a b k : Nat), b < 10 ^ d.bDigits.toNat →
    (k < d.bDigits.toNat → pair d a b / 10 ^ k % 10 = b / 10 ^ k % 10)
    ∧ (d.bDigits.toNat ≤ k → pair d a b / 10 ^ k % 10 = a / 10 ^ (k - d.bDigits.toNat) % 10)

/-- R171: split and combine, inverse to each other on `[0, r*r)`, with their ranges. -/
def Obligations.SplitAndCombineAreInverse : Prop :=
  ∀ r : Nat, 0 < r →
    (∀ c : Nat, c < r * r → split r c = (c / r, c % r) ∧ (split r c).1 < r ∧ (split r c).2 < r
      ∧ combine r (split r c) = c)
    ∧ (∀ L R : Nat, L < r → R < r → combine r (L, R) = L * r + R ∧ combine r (L, R) < r * r
      ∧ split r (combine r (L, R)) = (L, R))

/-- R174, R176: one forward round and one inverse round with every round function: their values, their ranges, and that
the inverse round undoes the forward round of the same index. -/
def Obligations.InverseRoundUndoesForwardRound : Prop :=
  ∀ (rf : RoundFn) (c : CipherContext) (i L R : Nat), L < c.r → R < c.r →
    (forwardRound rf c i (L, R)).1 = R
    ∧ (forwardRound rf c i (L, R)).2 = (L + rf c.key c.tweak i R) % c.r
    ∧ (forwardRound rf c i (L, R)).2 < c.r
    ∧ (inverseRound rf c i (L, R)).2 = L
    ∧ ((inverseRound rf c i (L, R)).1 : Int) = ((R : Int) - rf c.key c.tweak i L) % c.r
    ∧ (inverseRound rf c i (L, R)).1 < c.r
    ∧ inverseRound rf c i (forwardRound rf c i (L, R)) = (L, R)
    ∧ forwardRound rf c i (inverseRound rf c i (L, R)) = (L, R)

/-- R175, R177: T runs rounds `0, 1, ...` in increasing order and Tinv in decreasing order, each on both halves at once,
from the split of the value to the combination of the halves, and both stay in `[0, r*r)`. -/
def Obligations.TransformsRunTheirRounds : Prop :=
  ∀ (rf : RoundFn) (c : CipherContext) (x : Nat), x < c.r * c.r →
    transformT rf c x
      = combine c.r ((List.range c.rounds.toNat).foldl
          (fun (lr : Nat × Nat) i => (lr.2, (lr.1 + rf c.key c.tweak i lr.2) % c.r)) (x / c.r, x % c.r))
    ∧ transformTinv rf c x
      = combine c.r ((List.range c.rounds.toNat).reverse.foldl
          (fun (lr : Nat × Nat) i => ((((lr.2 : Int) - rf c.key c.tweak i lr.1) % c.r).toNat, lr.1)) (x / c.r, x % c.r))
    ∧ transformT rf c x < c.r * c.r ∧ transformTinv rf c x < c.r * c.r

/-- 41_feistel_cipher.md section 3 (R178, R185, marked derived): T is a bijection of `[0, r*r)` and Tinv its inverse,
for every round function, key, tweak and round count, odd or even. -/
def Obligations.TransformIsABijectionOfTheSuperset : Prop :=
  ∀ (rf : RoundFn) (c : CipherContext) (x : Nat), x < c.r * c.r →
    transformT rf c x < c.r * c.r ∧ transformTinv rf c x < c.r * c.r
    ∧ transformTinv rf c (transformT rf c x) = x ∧ transformT rf c (transformTinv rf c x) = x

/-- R179, R180: FWD answers the first iterate of T that lands below `N` and its walk count, if that count is within
CW_LIMIT, and fails exactly when the first CW_LIMIT iterates all land outside; INV likewise with Tinv. -/
def Obligations.WalksStopAtTheFirstValueInside : Prop :=
  ∀ (p : Params) (c : CipherContext) (size x : Nat),
    (∀ y k, fwd p c size x = some (y, k) ↔
      1 ≤ k ∧ k ≤ p.walkLimit ∧ y = (transformT p.rf c)^[k] x ∧ y < size
        ∧ ∀ j, 1 ≤ j → j < k → size ≤ (transformT p.rf c)^[j] x)
    ∧ (fwd p c size x = none ↔ ∀ j, 1 ≤ j → j ≤ p.walkLimit → size ≤ (transformT p.rf c)^[j] x)
    ∧ (∀ y k, inv p c size x = some (y, k) ↔
      1 ≤ k ∧ k ≤ p.walkLimit ∧ y = (transformTinv p.rf c)^[k] x ∧ y < size
        ∧ ∀ j, 1 ≤ j → j < k → size ≤ (transformTinv p.rf c)^[j] x)
    ∧ (inv p c size x = none ↔ ∀ j, 1 ≤ j → j ≤ p.walkLimit → size ≤ (transformTinv p.rf c)^[j] x)

/-- 41_feistel_cipher.md section 4 (R182, marked derived): INV undoes FWD with the same walk count under the same guard,
and FWD undoes INV, for every round function. -/
def Obligations.InverseWalkUndoesForwardWalk : Prop :=
  ∀ (p : Params) (c : CipherContext) (size x y k : Nat), size ≤ c.r * c.r → x < size → y < size →
    (fwd p c size x = some (y, k) ↔ inv p c size y = some (x, k))

/-- 41_feistel_cipher.md section 4 (R181, marked derived): a guard of at least `r*r - N + 1` never trips; with the
default guard `2^32 - 1` it cannot trip in a legal domain whose digit sum is at most 18. -/
def Obligations.LongGuardNeverTrips : Prop :=
  (∀ (p : Params) (c : CipherContext) (size x : Nat), size ≤ c.r * c.r → x < size →
    c.r * c.r - size + 1 ≤ p.walkLimit → (∃ yk, fwd p c size x = some yk) ∧ ∃ yk, inv p c size x = some yk)
  ∧ (∀ (p : Params) (c : CipherContext) (n x : Nat), p.walkLimit = 2 ^ 32 - 1 → 2 ≤ n → n ≤ 18 →
    c.r = ceilSqrt (10 ^ n) → x < 10 ^ n →
    (∃ yk, fwd p c (10 ^ n) x = some yk) ∧ ∃ yk, inv p c (10 ^ n) x = some yk)

/-- 40_domain_encoder.md section 4 (R143, marked derived): the round trip at the commands, with a cipher or without, for
every round function and guard. An ENCODE that completes with OK is undone by DECODE of its C_OUT, with the same walk
count; a DECODE that completes with OK is undone by ENCODE of its A_OUT and B_OUT. -/
def Obligations.DecodeUndoesEncode : Prop :=
  ∀ (p : Params) (s t : State) (d : Domain), p.Wf → s.dom = some d → d.Legal →
    (∀ c, s.ctx = some c → c.r = ceilSqrt (10 ^ (d.aDigits.toNat + d.bDigits.toNat))) →
    (encodeWith p s = .next t → t.err = 0 →
      ∃ u, decodeWith p { t with cIn := t.cOut } = .next u ∧ u.err = 0 ∧ u.aOut = s.aIn ∧ u.bOut = s.bIn ∧ u.cw = t.cw)
    ∧ (decodeWith p s = .next t → t.err = 0 →
      ∃ u, encodeWith p { t with aIn := t.aOut, bIn := t.bOut } = .next u ∧ u.err = 0 ∧ u.cOut = s.cIn ∧ u.cw = t.cw)

/-- 40_domain_encoder.md section 4 (R145, marked derived): after two successful INSTALL_CIPHER commands the context is the
second's alone: it is the one the second builds in a block that never had the first. -/
def Obligations.LatestInstallationWins : Prop :=
  ∀ (p : Params) (rounds : Byte) (s t : State) (old : Option CipherContext),
    installCipherWith p rounds s = .next t → t.err = 0 →
    installCipherWith p rounds { s with ctx := old } = .next t
end

