-- ==== Sys2Proof/Laws/State.lean ====
section
/-! SUPPORT. One lemma per field per named update of State (`finish`, `issue`, `reply`, `withOrder`, `applyReset`), each true by rfl, so that no proof unfolds an update. -/

namespace Sys2Proof.Machine

/-! ### State.finish -/

@[simp] theorem State.finish_busy (s : State) (e : ErrCode) : (s.finish e).busy = false := rfl
@[simp] theorem State.finish_pend (s : State) (e : ErrCode) : (s.finish e).pend = s.pend := rfl
@[simp] theorem State.finish_err (s : State) (e : ErrCode) : (s.finish e).err = e.toBits := rfl
@[simp] theorem State.finish_dom (s : State) (e : ErrCode) : (s.finish e).dom = s.dom := rfl
@[simp] theorem State.finish_ctx (s : State) (e : ErrCode) : (s.finish e).ctx = s.ctx := rfl
@[simp] theorem State.finish_cw (s : State) (e : ErrCode) : (s.finish e).cw = s.cw := rfl
@[simp] theorem State.finish_keyLen (s : State) (e : ErrCode) : (s.finish e).keyLen = s.keyLen := rfl
@[simp] theorem State.finish_tweakLen (s : State) (e : ErrCode) : (s.finish e).tweakLen = s.tweakLen := rfl
@[simp] theorem State.finish_keyStage (s : State) (e : ErrCode) : (s.finish e).keyStage = s.keyStage := rfl
@[simp] theorem State.finish_tweakStage (s : State) (e : ErrCode) : (s.finish e).tweakStage = s.tweakStage := rfl
@[simp] theorem State.finish_aIn (s : State) (e : ErrCode) : (s.finish e).aIn = s.aIn := rfl
@[simp] theorem State.finish_bIn (s : State) (e : ErrCode) : (s.finish e).bIn = s.bIn := rfl
@[simp] theorem State.finish_cIn (s : State) (e : ErrCode) : (s.finish e).cIn = s.cIn := rfl
@[simp] theorem State.finish_aOut (s : State) (e : ErrCode) : (s.finish e).aOut = s.aOut := rfl
@[simp] theorem State.finish_bOut (s : State) (e : ErrCode) : (s.finish e).bOut = s.bOut := rfl
@[simp] theorem State.finish_cOut (s : State) (e : ErrCode) : (s.finish e).cOut = s.cOut := rfl
@[simp] theorem State.finish_order (s : State) (e : ErrCode) : (s.finish e).order = s.order := rfl
@[simp] theorem State.finish_replies (s : State) (e : ErrCode) : (s.finish e).replies = s.replies := rfl

/-! ### State.issue -/

@[simp] theorem State.issue_busy (s : State) (w : Word) : (s.issue w).busy = true := rfl
@[simp] theorem State.issue_pend (s : State) (w : Word) : (s.issue w).pend = w := rfl
@[simp] theorem State.issue_err (s : State) (w : Word) : (s.issue w).err = s.err := rfl
@[simp] theorem State.issue_dom (s : State) (w : Word) : (s.issue w).dom = s.dom := rfl
@[simp] theorem State.issue_ctx (s : State) (w : Word) : (s.issue w).ctx = s.ctx := rfl
@[simp] theorem State.issue_cw (s : State) (w : Word) : (s.issue w).cw = s.cw := rfl
@[simp] theorem State.issue_keyLen (s : State) (w : Word) : (s.issue w).keyLen = s.keyLen := rfl
@[simp] theorem State.issue_tweakLen (s : State) (w : Word) : (s.issue w).tweakLen = s.tweakLen := rfl
@[simp] theorem State.issue_keyStage (s : State) (w : Word) : (s.issue w).keyStage = s.keyStage := rfl
@[simp] theorem State.issue_tweakStage (s : State) (w : Word) : (s.issue w).tweakStage = s.tweakStage := rfl
@[simp] theorem State.issue_aIn (s : State) (w : Word) : (s.issue w).aIn = s.aIn := rfl
@[simp] theorem State.issue_bIn (s : State) (w : Word) : (s.issue w).bIn = s.bIn := rfl
@[simp] theorem State.issue_cIn (s : State) (w : Word) : (s.issue w).cIn = s.cIn := rfl
@[simp] theorem State.issue_aOut (s : State) (w : Word) : (s.issue w).aOut = s.aOut := rfl
@[simp] theorem State.issue_bOut (s : State) (w : Word) : (s.issue w).bOut = s.bOut := rfl
@[simp] theorem State.issue_cOut (s : State) (w : Word) : (s.issue w).cOut = s.cOut := rfl
@[simp] theorem State.issue_order (s : State) (w : Word) : (s.issue w).order = s.order := rfl
@[simp] theorem State.issue_replies (s : State) (w : Word) : (s.issue w).replies = s.replies := rfl

/-! ### State.reply -/

@[simp] theorem State.reply_busy (s : State) (off : Offset) (v : Word) : (s.reply off v).busy = s.busy := rfl
@[simp] theorem State.reply_pend (s : State) (off : Offset) (v : Word) : (s.reply off v).pend = s.pend := rfl
@[simp] theorem State.reply_err (s : State) (off : Offset) (v : Word) : (s.reply off v).err = s.err := rfl
@[simp] theorem State.reply_dom (s : State) (off : Offset) (v : Word) : (s.reply off v).dom = s.dom := rfl
@[simp] theorem State.reply_ctx (s : State) (off : Offset) (v : Word) : (s.reply off v).ctx = s.ctx := rfl
@[simp] theorem State.reply_cw (s : State) (off : Offset) (v : Word) : (s.reply off v).cw = s.cw := rfl
@[simp] theorem State.reply_keyLen (s : State) (off : Offset) (v : Word) : (s.reply off v).keyLen = s.keyLen := rfl
@[simp] theorem State.reply_tweakLen (s : State) (off : Offset) (v : Word) : (s.reply off v).tweakLen = s.tweakLen := rfl
@[simp] theorem State.reply_keyStage (s : State) (off : Offset) (v : Word) : (s.reply off v).keyStage = s.keyStage := rfl
@[simp] theorem State.reply_tweakStage (s : State) (off : Offset) (v : Word) : (s.reply off v).tweakStage = s.tweakStage := rfl
@[simp] theorem State.reply_aIn (s : State) (off : Offset) (v : Word) : (s.reply off v).aIn = s.aIn := rfl
@[simp] theorem State.reply_bIn (s : State) (off : Offset) (v : Word) : (s.reply off v).bIn = s.bIn := rfl
@[simp] theorem State.reply_cIn (s : State) (off : Offset) (v : Word) : (s.reply off v).cIn = s.cIn := rfl
@[simp] theorem State.reply_aOut (s : State) (off : Offset) (v : Word) : (s.reply off v).aOut = s.aOut := rfl
@[simp] theorem State.reply_bOut (s : State) (off : Offset) (v : Word) : (s.reply off v).bOut = s.bOut := rfl
@[simp] theorem State.reply_cOut (s : State) (off : Offset) (v : Word) : (s.reply off v).cOut = s.cOut := rfl
@[simp] theorem State.reply_order (s : State) (off : Offset) (v : Word) : (s.reply off v).order = s.order := rfl
@[simp] theorem State.reply_replies (s : State) (off : Offset) (v : Word) : (s.reply off v).replies = ⟨off, v⟩ :: s.replies := rfl

/-! ### State.withOrder -/

@[simp] theorem State.withOrder_busy (s : State) (rest : List PortEvent) : (s.withOrder rest).busy = s.busy := rfl
@[simp] theorem State.withOrder_pend (s : State) (rest : List PortEvent) : (s.withOrder rest).pend = s.pend := rfl
@[simp] theorem State.withOrder_err (s : State) (rest : List PortEvent) : (s.withOrder rest).err = s.err := rfl
@[simp] theorem State.withOrder_dom (s : State) (rest : List PortEvent) : (s.withOrder rest).dom = s.dom := rfl
@[simp] theorem State.withOrder_ctx (s : State) (rest : List PortEvent) : (s.withOrder rest).ctx = s.ctx := rfl
@[simp] theorem State.withOrder_cw (s : State) (rest : List PortEvent) : (s.withOrder rest).cw = s.cw := rfl
@[simp] theorem State.withOrder_keyLen (s : State) (rest : List PortEvent) : (s.withOrder rest).keyLen = s.keyLen := rfl
@[simp] theorem State.withOrder_tweakLen (s : State) (rest : List PortEvent) : (s.withOrder rest).tweakLen = s.tweakLen := rfl
@[simp] theorem State.withOrder_keyStage (s : State) (rest : List PortEvent) : (s.withOrder rest).keyStage = s.keyStage := rfl
@[simp] theorem State.withOrder_tweakStage (s : State) (rest : List PortEvent) : (s.withOrder rest).tweakStage = s.tweakStage := rfl
@[simp] theorem State.withOrder_aIn (s : State) (rest : List PortEvent) : (s.withOrder rest).aIn = s.aIn := rfl
@[simp] theorem State.withOrder_bIn (s : State) (rest : List PortEvent) : (s.withOrder rest).bIn = s.bIn := rfl
@[simp] theorem State.withOrder_cIn (s : State) (rest : List PortEvent) : (s.withOrder rest).cIn = s.cIn := rfl
@[simp] theorem State.withOrder_aOut (s : State) (rest : List PortEvent) : (s.withOrder rest).aOut = s.aOut := rfl
@[simp] theorem State.withOrder_bOut (s : State) (rest : List PortEvent) : (s.withOrder rest).bOut = s.bOut := rfl
@[simp] theorem State.withOrder_cOut (s : State) (rest : List PortEvent) : (s.withOrder rest).cOut = s.cOut := rfl
@[simp] theorem State.withOrder_order (s : State) (rest : List PortEvent) : (s.withOrder rest).order = rest := rfl
@[simp] theorem State.withOrder_replies (s : State) (rest : List PortEvent) : (s.withOrder rest).replies = s.replies := rfl

/-! ### State.applyReset -/

@[simp] theorem State.applyReset_busy (s : State) : s.applyReset.busy = State.reset.busy := rfl
@[simp] theorem State.applyReset_pend (s : State) : s.applyReset.pend = State.reset.pend := rfl
@[simp] theorem State.applyReset_err (s : State) : s.applyReset.err = State.reset.err := rfl
@[simp] theorem State.applyReset_dom (s : State) : s.applyReset.dom = State.reset.dom := rfl
@[simp] theorem State.applyReset_ctx (s : State) : s.applyReset.ctx = State.reset.ctx := rfl
@[simp] theorem State.applyReset_cw (s : State) : s.applyReset.cw = State.reset.cw := rfl
@[simp] theorem State.applyReset_keyLen (s : State) : s.applyReset.keyLen = State.reset.keyLen := rfl
@[simp] theorem State.applyReset_tweakLen (s : State) : s.applyReset.tweakLen = State.reset.tweakLen := rfl
@[simp] theorem State.applyReset_keyStage (s : State) : s.applyReset.keyStage = State.reset.keyStage := rfl
@[simp] theorem State.applyReset_tweakStage (s : State) : s.applyReset.tweakStage = State.reset.tweakStage := rfl
@[simp] theorem State.applyReset_aIn (s : State) : s.applyReset.aIn = State.reset.aIn := rfl
@[simp] theorem State.applyReset_bIn (s : State) : s.applyReset.bIn = State.reset.bIn := rfl
@[simp] theorem State.applyReset_cIn (s : State) : s.applyReset.cIn = State.reset.cIn := rfl
@[simp] theorem State.applyReset_aOut (s : State) : s.applyReset.aOut = State.reset.aOut := rfl
@[simp] theorem State.applyReset_bOut (s : State) : s.applyReset.bOut = State.reset.bOut := rfl
@[simp] theorem State.applyReset_cOut (s : State) : s.applyReset.cOut = State.reset.cOut := rfl
@[simp] theorem State.applyReset_order (s : State) : s.applyReset.order = s.order := rfl
@[simp] theorem State.applyReset_replies (s : State) : s.applyReset.replies = s.replies := rfl

/-! ### The named updates as record updates -/

theorem State.finish_eq (s : State) (e : ErrCode) : s.finish e = { s with err := e.toBits, busy := false } := rfl

theorem State.issue_eq (s : State) (w : Word) : s.issue w = { s with pend := w, busy := true } := rfl

theorem State.reply_eq (s : State) (off : Offset) (v : Word) :
    s.reply off v = { s with replies := ⟨off, v⟩ :: s.replies } := rfl

theorem State.withOrder_eq (s : State) (rest : List PortEvent) : s.withOrder rest = { s with order := rest } := rfl

theorem State.applyReset_eq (s : State) :
    s.applyReset = { State.reset with order := s.order, replies := s.replies } := rfl

end Sys2Proof.Machine
end

