-- ==== Sys2Proof/Laws/Ops.lean ====
section
/-! SUPPORT. What the shared operations do: the ends of a command, the domain precondition, the derived domain quantities, and the exact arithmetic of spec/00_scope.md R9 and R10. -/

namespace Sys2Proof.Machine

/-! ### Ends of a command -/

theorem raiseError_eq (e : ErrCode) (s : State) : raiseError e s = .next (s.finish e) := rfl

theorem completeOk_eq (s : State) : completeOk s = .next (s.finish .ok) := rfl

theorem requireDomain_none {s : State} (h : s.dom = none) (go : Domain → Result) :
    requireDomain s go = .next (s.finish .invalidDomain) := by
  simp only [requireDomain, h]; rfl

theorem requireDomain_some {s : State} {d : Domain} (h : s.dom = some d) (go : Domain → Result) :
    requireDomain s go = go d := by
  simp only [requireDomain, h]

theorem errCode_toBits_le (e : ErrCode) : e.toBits.toNat ≤ 5 := by cases e <;> decide

theorem errCode_toBits_inj {e e' : ErrCode} (h : e.toBits = e'.toBits) : e = e' := by
  revert h; cases e <;> cases e' <;> decide

/-! ### Derived domain quantities -/

theorem Domain.size_eq (d : Domain) : d.size = d.aSize * d.bSize := by
  simp only [Domain.size, Domain.aSize, Domain.bSize, Nat.pow_add]

theorem Domain.aSize_pos (d : Domain) : 0 < d.aSize := Nat.pow_pos (by decide)

theorem Domain.bSize_pos (d : Domain) : 0 < d.bSize := Nat.pow_pos (by decide)

theorem Domain.size_pos (d : Domain) : 0 < d.size := Nat.pow_pos (by decide)

theorem Domain.le_aMax {d : Domain} {a : Nat} : a ≤ d.aMax ↔ a < d.aSize := by
  have := d.aSize_pos; simp only [Domain.aMax]; omega

theorem Domain.le_bMax {d : Domain} {b : Nat} : b ≤ d.bMax ↔ b < d.bSize := by
  have := d.bSize_pos; simp only [Domain.bMax]; omega

/-- CONSTRUCT's width check is the digit-sum bound: `10^n >= 2^256` exactly when `n > 77`. -/
theorem width_le_pow_iff (n : Nat) : 2 ^ Config.width ≤ 10 ^ n ↔ 77 < n := by
  constructor
  · intro h
    by_contra hn
    have h77 : 10 ^ n ≤ 10 ^ 77 := Nat.pow_le_pow_right (by decide) (by omega)
    exact absurd (h.trans h77) (by decide)
  · intro h
    have h78 : 10 ^ 78 ≤ 10 ^ n := Nat.pow_le_pow_right (by decide) (by omega)
    exact le_trans (by decide) h78

/-! ### Euclidean remainder of a difference -/

theorem subMod_lt (x f : Nat) {r : Nat} (hr : 0 < r) : subMod x f r < r := by
  have h0 := Int.emod_nonneg ((x : Int) - f) (b := (r : Int)) (by omega)
  have h1 := Int.emod_lt_of_pos ((x : Int) - f) (b := (r : Int)) (by omega)
  simp only [subMod]; omega

theorem subMod_cast (x f : Nat) {r : Nat} (hr : 0 < r) : (subMod x f r : Int) = ((x : Int) - f) % r := by
  have h0 := Int.emod_nonneg ((x : Int) - f) (b := (r : Int)) (by omega)
  simp only [subMod]; omega

/-- Subtracting undoes adding modulo `r`. -/
theorem subMod_add_mod {x f r : Nat} (hx : x < r) : subMod ((x + f) % r) f r = x := by
  have hr : 0 < r := by omega
  have h := subMod_cast ((x + f) % r) f hr
  push_cast at h
  rw [Int.sub_emod, Int.emod_emod_of_dvd _ (dvd_refl _), ← Int.sub_emod, Int.add_sub_cancel,
    Int.emod_eq_of_lt (by omega) (by omega)] at h
  exact_mod_cast h

/-- Adding undoes subtracting modulo `r`. -/
theorem add_subMod_mod {x f r : Nat} (hx : x < r) : (subMod x f r + f) % r = x := by
  have hr : 0 < r := by omega
  have h : (((subMod x f r + f) % r : Nat) : Int) = x := by
    push_cast
    rw [subMod_cast x f hr, Int.emod_add_emod, Int.sub_add_cancel, Int.emod_eq_of_lt (by omega) (by omega)]
  exact_mod_cast h

/-! ### isqrt and ceil_sqrt -/

theorem isqrtBits_spec (n : Nat) : ∀ k root, root * root ≤ n → n < (root + 2 ^ k) * (root + 2 ^ k) →
    isqrtBits n k root * isqrtBits n k root ≤ n ∧ n < (isqrtBits n k root + 1) * (isqrtBits n k root + 1)
  | 0, root, hlo, hhi => ⟨hlo, hhi⟩
  | k + 1, root, hlo, hhi => by
    have hpow : (2 : Nat) ^ (k + 1) = 2 ^ k + 2 ^ k := by rw [Nat.pow_succ]; omega
    simp only [isqrtBits]
    split
    · rename_i hbit
      exact isqrtBits_spec n k _ hbit (by rwa [hpow, ← Nat.add_assoc] at hhi)
    · rename_i hbit
      exact isqrtBits_spec n k _ hlo (by omega)

/-- `isqrt(n)` is the greatest `s` with `s * s <= n` (R10). -/
theorem isqrt_spec (n : Nat) : isqrt n * isqrt n ≤ n ∧ n < (isqrt n + 1) * (isqrt n + 1) := by
  refine isqrtBits_spec n _ 0 (by omega) ?_
  have h : n < 2 ^ (n.log2 + 1) := Nat.lt_log2_self
  have hle : 2 ^ (n.log2 + 1) ≤ 2 ^ ((n.log2 / 2 + 1) + (n.log2 / 2 + 1)) :=
    Nat.pow_le_pow_right (by decide) (by omega)
  rw [Nat.zero_add, ← Nat.pow_add]
  exact lt_of_lt_of_le h hle

/-- `ceil_sqrt(n)` squares to at least `n`. -/
theorem le_ceilSqrt_sq (n : Nat) : n ≤ ceilSqrt n * ceilSqrt n := by
  have h := isqrt_spec n
  simp only [ceilSqrt]; split <;> omega

/-- No smaller number does. -/
theorem ceilSqrt_le {n q : Nat} (h : n ≤ q * q) : ceilSqrt n ≤ q := by
  have hs := isqrt_spec n
  by_contra hq
  simp only [ceilSqrt] at hq
  split at hq
  · rename_i heq
    have : q * q < isqrt n * isqrt n := Nat.mul_self_lt_mul_self (by omega)
    omega
  · rename_i hne
    have : q * q ≤ isqrt n * isqrt n := Nat.mul_self_le_mul_self (by omega)
    omega

theorem ceilSqrt_pos {n : Nat} (h : 1 ≤ n) : 1 ≤ ceilSqrt n := by
  have hs := le_ceilSqrt_sq n
  by_contra h0
  have : ceilSqrt n = 0 := by omega
  simp [this] at hs; omega

/-- A square's root is exact. -/
theorem ceilSqrt_mul_self (q : Nat) : ceilSqrt (q * q) = q := by
  refine le_antisymm (ceilSqrt_le le_rfl) ?_
  exact Nat.mul_self_le_mul_self_iff.mp (le_ceilSqrt_sq (q * q))

end Sys2Proof.Machine
end

