-- ==== Sys2Proof/Laws/Feistel.lean ====
section
/-! SUPPORT. Ranges and one-step inverses of the Feistel engine (spec/41_feistel_cipher.md R171, R174, R176), and how the cycle-walk unfolds (R179, R180). -/

namespace Sys2Proof.Machine

/-- Both halves are below the radix. -/
def HalvesBelow (r : Nat) (lr : Nat × Nat) : Prop := lr.1 < r ∧ lr.2 < r

theorem split_below {r c : Nat} (h : c < r * r) : HalvesBelow r (split r c) := by
  have hr : 0 < r := by rcases Nat.eq_zero_or_pos r with h0 | h0 <;> simp_all
  exact ⟨Nat.div_lt_of_lt_mul h, Nat.mod_lt _ hr⟩

theorem combine_split (r c : Nat) : combine r (split r c) = c := Nat.div_add_mod' c r

theorem combine_lt {r : Nat} {lr : Nat × Nat} (h : HalvesBelow r lr) : combine r lr < r * r := by
  obtain ⟨hl, hr⟩ := h
  have h1 : (lr.1 + 1) * r ≤ r * r := Nat.mul_le_mul_right r hl
  simp only [combine]; rw [Nat.add_mul, Nat.one_mul] at h1; omega

theorem split_combine {r : Nat} {lr : Nat × Nat} (h : lr.2 < r) : split r (combine r lr) = lr := by
  have hr : 0 < r := by omega
  simp only [split, combine]
  rw [Nat.mul_comm lr.1 r, Nat.mul_add_div hr, Nat.mul_add_mod, Nat.div_eq_of_lt h, Nat.mod_eq_of_lt h]
  simp

variable {rf : RoundFn} {c : CipherContext}

theorem forwardRound_below {i : Nat} {lr : Nat × Nat} (h : HalvesBelow c.r lr) :
    HalvesBelow c.r (forwardRound rf c i lr) := by
  have hr : 0 < c.r := by have := h.1; omega
  exact ⟨h.2, Nat.mod_lt _ hr⟩

theorem inverseRound_below {i : Nat} {lr : Nat × Nat} (h : HalvesBelow c.r lr) :
    HalvesBelow c.r (inverseRound rf c i lr) := by
  have hr : 0 < c.r := by have := h.1; omega
  exact ⟨subMod_lt _ _ hr, h.1⟩

theorem forwardRounds_below {lr : Nat × Nat} (h : HalvesBelow c.r lr) :
    ∀ n, HalvesBelow c.r (forwardRounds rf c n lr)
  | 0 => h
  | n + 1 => forwardRound_below (forwardRounds_below h n)

theorem inverseRounds_below : ∀ (n : Nat) {lr : Nat × Nat}, HalvesBelow c.r lr →
    HalvesBelow c.r (inverseRounds rf c n lr)
  | 0, _, h => h
  | n + 1, _, h => inverseRounds_below n (inverseRound_below h)

theorem transformT_lt {x : Nat} (h : x < c.r * c.r) : transformT rf c x < c.r * c.r :=
  combine_lt (forwardRounds_below (split_below h) _)

theorem transformTinv_lt {x : Nat} (h : x < c.r * c.r) : transformTinv rf c x < c.r * c.r :=
  combine_lt (inverseRounds_below _ (split_below h))

/-! ### The walk -/

/-- One more application lands inside: the walk ends there. -/
theorem cycleWalk_inside {t : Nat → Nat} {size y : Nat} (left k : Nat) (h : t y < size) :
    cycleWalk t size (left + 1) y k = some (t y, k + 1) := by
  simp only [cycleWalk, h, if_true]

/-- It lands outside: the walk goes on from there. -/
theorem cycleWalk_outside {t : Nat → Nat} {size y : Nat} (left k : Nat) (h : size ≤ t y) :
    cycleWalk t size (left + 1) y k = cycleWalk t size left (t y) (k + 1) := by
  simp only [cycleWalk, Nat.not_lt.mpr h, if_false]

/-- What a walk answers: a value inside, after at most `left` more applications. -/
theorem cycleWalk_some {t : Nat → Nat} {size : Nat} : ∀ {left y k v m : Nat},
    cycleWalk t size left y k = some (v, m) → v < size ∧ k < m ∧ m ≤ k + left
  | 0, _, _, _, _, h => by simp [cycleWalk] at h
  | left + 1, y, k, v, m, h => by
    by_cases hin : t y < size
    · rw [cycleWalk_inside left k hin] at h
      simp only [Option.some.injEq, Prod.mk.injEq] at h
      omega
    · rw [cycleWalk_outside left k (by omega)] at h
      have := cycleWalk_some h
      omega

end Sys2Proof.Machine
end

