-- ==== Sys2Proof/Laws/Commands.lean ====
section
/-! SUPPORT. What a command can do, said once: it ends with an error code and nothing more, or with the writes of its rule and OK (spec/40_domain_encoder.md R133 to R138; spec/60_exceptions.md R217, R218). -/

namespace Sys2Proof.Machine

/-! ### Pairing -/

theorem pair_lt {d : Domain} {a b : Nat} (ha : a < d.aSize) (hb : b < d.bSize) : pair d a b < d.size := by
  have h : (a + 1) * d.bSize ≤ d.aSize * d.bSize := Nat.mul_le_mul_right _ ha
  rw [Nat.add_mul, Nat.one_mul] at h
  simp only [pair, Domain.size_eq]; omega

theorem unpair_fst_lt {d : Domain} {c : Nat} (h : c < d.size) : (unpair d c).1 < d.aSize := by
  rw [Domain.size_eq, Nat.mul_comm] at h
  exact Nat.div_lt_of_lt_mul h

theorem unpair_snd_lt (d : Domain) (c : Nat) : (unpair d c).2 < d.bSize := Nat.mod_lt _ d.bSize_pos

theorem pair_unpair (d : Domain) (c : Nat) : pair d (unpair d c).1 (unpair d c).2 = c := Nat.div_add_mod' c _

theorem unpair_pair {d : Domain} {a b : Nat} (hb : b < d.bSize) : unpair d (pair d a b) = (a, b) := by
  have hpos := d.bSize_pos
  simp only [unpair, pair]
  rw [Nat.mul_comm a, Nat.mul_add_div hpos, Nat.mul_add_mod, Nat.div_eq_of_lt hb, Nat.mod_eq_of_lt hb]
  simp

/-! ### Legal domains fit the registers -/

theorem Domain.Legal.size_lt {d : Domain} (h : d.Legal) : d.size < 2 ^ 256 := by
  have hs : d.size ≤ 10 ^ 77 := Nat.pow_le_pow_right (by decide) h.2.2
  exact lt_of_le_of_lt hs (by decide)

theorem Domain.aSize_le_size (d : Domain) : d.aSize ≤ d.size := by
  rw [d.size_eq]; exact Nat.le_mul_of_pos_right _ d.bSize_pos

theorem Domain.bSize_le_size (d : Domain) : d.bSize ≤ d.size := by
  rw [d.size_eq]; exact Nat.le_mul_of_pos_left _ d.aSize_pos

/-! ### The success of each command -/

/-- The writes a command of parameters `p` makes before it completes with OK: the state `w` they leave, under the
conditions of the command's rule. -/
def SuccessWrites (p : Params) : Instr → State → State → Prop
  | .construct ad bd, s, w =>
    (⟨ad, bd⟩ : Domain).Legal ∧ w = { s with dom := some ⟨ad, bd⟩, ctx := none }
  | .installCipher rounds, s, w => ∃ d, s.dom = some d ∧ 2 ≤ d.size
      ∧ 1 ≤ s.keyLen.toNat ∧ s.keyLen.toNat ≤ Config.keyMax ∧ s.tweakLen.toNat ≤ Config.tweakMax
      ∧ p.rfKeyOk s.stagedKey = true
      ∧ w = { s with ctx := some ⟨s.stagedKey, s.stagedTweak, rounds, ceilSqrt d.size⟩ }
  | .encode, s, w => ∃ d c k, s.dom = some d ∧ s.operandA < d.aSize ∧ s.operandB < d.bSize
      ∧ encipher p s.ctx d.size (pair d s.operandA s.operandB) = some (c, k)
      ∧ w = { s with cOut := BitVec.ofNat 256 c, cw := BitVec.ofNat 32 k }
  | .decode, s, w => ∃ d c k, s.dom = some d ∧ s.operandC < d.size
      ∧ decipher p s.ctx d.size s.operandC = some (c, k)
      ∧ w = { s with
          aOut := BitVec.ofNat 256 (unpair d c).1
          bOut := BitVec.ofNat 256 (unpair d c).2
          cw := BitVec.ofNat 32 k }
  | .maximums, s, w => ∃ d, s.dom = some d
      ∧ w = { s with aOut := BitVec.ofNat 256 d.aMax, bOut := BitVec.ofNat 256 d.bMax }
  | .illegal _, _, _ => False

/-- No command touches the turns of the port. -/
theorem SuccessWrites.order_eq {p : Params} {i : Instr} {s w : State} (h : SuccessWrites p i s w) :
    w.order = s.order := by
  cases i with
  | construct ad bd => obtain ⟨-, rfl⟩ := h; rfl
  | installCipher rounds => obtain ⟨_, _, _, _, _, _, _, rfl⟩ := h; rfl
  | encode => obtain ⟨_, _, _, _, _, _, _, rfl⟩ := h; rfl
  | decode => obtain ⟨_, _, _, _, _, _, rfl⟩ := h; rfl
  | maximums => obtain ⟨_, _, rfl⟩ := h; rfl
  | illegal _ => exact h.elim

/-- How a command ends. -/
def EndsAs (p : Params) (i : Instr) (s : State) (r : Result) : Prop :=
  (∃ e, e ≠ .ok ∧ r = .next (s.finish e)) ∨ ∃ w, SuccessWrites p i s w ∧ r = .next (w.finish .ok)

theorem construct_ends (p : Params) (ad bd : Byte) (s : State) :
    EndsAs p (.construct ad bd) s (execConstruct ad bd s) := by
  simp only [execConstruct]
  split
  · exact .inl ⟨.invalidDomain, by decide, rfl⟩
  · rename_i hpos
    split
    · exact .inl ⟨.invalidDomain, by decide, rfl⟩
    · rename_i hfit
      rw [width_le_pow_iff] at hfit
      refine .inr ⟨_, ⟨⟨?_, ?_, ?_⟩, rfl⟩, rfl⟩ <;> simp only [Config.digitsMax] <;> omega

theorem installCipher_ends (p : Params) (rounds : Byte) (s : State) :
    EndsAs p (.installCipher rounds) s (installCipherWith p rounds s) := by
  rcases hd : s.dom with _ | d
  · exact .inl ⟨.invalidDomain, by decide, requireDomain_none hd _⟩
  · rw [installCipherWith, requireDomain_some hd]
    split
    · exact .inl ⟨.invalidDomain, by decide, rfl⟩
    · split
      · exact .inl ⟨.invalidKey, by decide, rfl⟩
      · split
        · exact .inl ⟨.invalidKey, by decide, rfl⟩
        · split
          · exact .inl ⟨.invalidKey, by decide, rfl⟩
          · refine .inr ⟨_, ⟨d, hd, ?_, ?_, ?_, ?_, ?_, rfl⟩, rfl⟩ <;> first | omega | simp_all

theorem encode_ends (p : Params) (s : State) : EndsAs p .encode s (encodeWith p s) := by
  rcases hd : s.dom with _ | d
  · exact .inl ⟨.invalidDomain, by decide, requireDomain_none hd _⟩
  · rw [encodeWith, requireDomain_some hd]
    split
    · exact .inl ⟨.outOfRange, by decide, rfl⟩
    · rename_i hrange
      rw [not_or, Nat.not_lt, Nat.not_lt, Domain.le_aMax, Domain.le_bMax] at hrange
      rcases hck : encipher p s.ctx d.size (pair d s.operandA s.operandB) with _ | ⟨c, k⟩
      · exact .inl ⟨.internalError, by decide, rfl⟩
      · exact .inr ⟨_, ⟨d, c, k, hd, hrange.1, hrange.2, hck, rfl⟩, rfl⟩

theorem decode_ends (p : Params) (s : State) : EndsAs p .decode s (decodeWith p s) := by
  rcases hd : s.dom with _ | d
  · exact .inl ⟨.invalidDomain, by decide, requireDomain_none hd _⟩
  · rw [decodeWith, requireDomain_some hd]
    split
    · exact .inl ⟨.outOfRange, by decide, rfl⟩
    · rename_i hrange
      rcases hck : decipher p s.ctx d.size s.operandC with _ | ⟨c, k⟩
      · exact .inl ⟨.internalError, by decide, rfl⟩
      · exact .inr ⟨_, ⟨d, c, k, hd, by omega, hck, rfl⟩, rfl⟩

theorem maximums_ends (p : Params) (s : State) : EndsAs p .maximums s (execMaximums s) := by
  rcases hd : s.dom with _ | d
  · exact .inl ⟨.invalidDomain, by decide, requireDomain_none hd _⟩
  · rw [execMaximums, requireDomain_some hd]
    exact .inr ⟨_, ⟨d, hd, rfl⟩, rfl⟩

theorem illegal_ends (p : Params) (w : Word) (s : State) : EndsAs p (.illegal w) s (execIllegal w s) :=
  .inl ⟨.illegalCommand, by decide, rfl⟩

/-- Every command ends, with an error code alone or with its rule's writes and OK. -/
theorem exec_ends (i : Instr) (s : State) : EndsAs Config.params i s (exec i s) := by
  cases i with
  | construct ad bd => exact construct_ends _ ad bd s
  | installCipher rounds => exact installCipher_ends _ rounds s
  | encode => exact encode_ends _ s
  | decode => exact decode_ends _ s
  | maximums => exact maximums_ends _ s
  | illegal w => exact illegal_ends _ w s

/-! ### ENCODE and DECODE of operands in range -/

/-- ENCODE past its checks (R135). -/
theorem encodeWith_inRange {p : Params} {s : State} {d : Domain} (hd : s.dom = some d)
    (ha : s.operandA < d.aSize) (hb : s.operandB < d.bSize) :
    encodeWith p s = encodeResult s (encipher p s.ctx d.size (pair d s.operandA s.operandB)) := by
  have hr : ¬ (d.aMax < s.operandA ∨ d.bMax < s.operandB) := by
    rw [not_or, Nat.not_lt, Nat.not_lt, Domain.le_aMax, Domain.le_bMax]
    exact ⟨ha, hb⟩
  rw [encodeWith, requireDomain_some hd, if_neg hr]

/-- DECODE past its checks (R136). -/
theorem decodeWith_inRange {p : Params} {s : State} {d : Domain} (hd : s.dom = some d) (hc : s.operandC < d.size) :
    decodeWith p s = decodeResult d s (decipher p s.ctx d.size s.operandC) := by
  rw [decodeWith, requireDomain_some hd, if_neg (Nat.not_le.mpr hc)]

/-! ### Walk counts -/

theorem encipher_some {p : Params} {ctx : Option CipherContext} {size x y k : Nat}
    (h : encipher p ctx size x = some (y, k)) : k ≤ p.walkLimit ∧ (x < size → y < size) := by
  cases ctx with
  | none => simp only [encipher, Option.some.injEq, Prod.mk.injEq] at h; omega
  | some c => have := cycleWalk_some h; omega

theorem decipher_some {p : Params} {ctx : Option CipherContext} {size x y k : Nat}
    (h : decipher p ctx size x = some (y, k)) : k ≤ p.walkLimit ∧ (x < size → y < size) := by
  cases ctx with
  | none => simp only [decipher, Option.some.injEq, Prod.mk.injEq] at h; omega
  | some c => have := cycleWalk_some h; omega

/-- The block's guard fits CW_COUNT. -/
theorem params_walkLimit_le : Config.params.walkLimit ≤ 2 ^ 32 - 1 := by
  have h := Config.walkLimitFree.isLt
  simp only [Config.params]; omega

end Sys2Proof.Machine
end

