-- ==== Sys2Proof/Laws/Encoding.lean ====
section
/-! SUPPORT. The fields of a command word as numbers, and the byte lanes of a word (spec/30_encoding.md R100; spec/20_memory.md R73). -/

namespace Sys2Proof

theorem opField_toNat (w : Word) : (opField w).toNat = w.toNat % 16 := by simp [opField]

theorem res0Field_toNat (w : Word) : (res0Field w).toNat = w.toNat / 2 ^ 4 % 16 := by
  simp [res0Field, Nat.shiftRight_eq_div_pow]

theorem imm1Field_toNat (w : Word) : (imm1Field w).toNat = w.toNat / 2 ^ 8 % 256 := by
  simp [imm1Field, Nat.shiftRight_eq_div_pow]

theorem imm2Field_toNat (w : Word) : (imm2Field w).toNat = w.toNat / 2 ^ 16 % 256 := by
  simp [imm2Field, Nat.shiftRight_eq_div_pow]

theorem res1Field_toNat (w : Word) : (res1Field w).toNat = w.toNat / 2 ^ 24 % 256 := by
  simp [res1Field, Nat.shiftRight_eq_div_pow]

theorem laneOf_toNat (w : Word) (m : Nat) : (laneOf w m).toNat = w.toNat / 2 ^ (8 * m) % 256 := by
  simp [laneOf, Nat.shiftRight_eq_div_pow]

theorem wordOfLanes_toNat (b0 b1 b2 b3 : Byte) : (wordOfLanes b0 b1 b2 b3).toNat
    = b0.toNat + 2 ^ 8 * b1.toNat + 2 ^ 16 * b2.toNat + 2 ^ 24 * b3.toNat := by
  have h0 := b0.isLt; have h1 := b1.isLt; have h2 := b2.isLt
  simp only [wordOfLanes, BitVec.toNat_append]
  rw [← Nat.shiftLeft_add_eq_or_of_lt h0, ← Nat.shiftLeft_add_eq_or_of_lt h1, ← Nat.shiftLeft_add_eq_or_of_lt h2]
  simp only [Nat.shiftLeft_eq]
  omega

/-- A word is put together again from its lanes. -/
theorem wordOfLanes_laneOf (w : Word) : wordOfLanes (laneOf w 0) (laneOf w 1) (laneOf w 2) (laneOf w 3) = w := by
  apply BitVec.eq_of_toNat_eq
  have := w.isLt
  simp only [wordOfLanes_toNat, laneOf_toNat]
  omega

/-- The lanes of a word put together are the bytes. -/
theorem laneOf_wordOfLanes (b0 b1 b2 b3 : Byte) :
    laneOf (wordOfLanes b0 b1 b2 b3) 0 = b0 ∧ laneOf (wordOfLanes b0 b1 b2 b3) 1 = b1
      ∧ laneOf (wordOfLanes b0 b1 b2 b3) 2 = b2 ∧ laneOf (wordOfLanes b0 b1 b2 b3) 3 = b3 := by
  have h0 := b0.isLt; have h1 := b1.isLt; have h2 := b2.isLt; have h3 := b3.isLt
  refine ⟨?_, ?_, ?_, ?_⟩ <;> apply BitVec.eq_of_toNat_eq <;>
    simp only [laneOf_toNat, wordOfLanes_toNat] <;> omega

/-- The number of a CONSTRUCT word. -/
theorem encode_construct_toNat (ad bd : Byte) :
    (encode (.construct ad bd)).toNat = 1 + 2 ^ 8 * ad.toNat + 2 ^ 16 * bd.toNat := by
  have ha := ad.isLt; have hb := bd.isLt
  have h : (encode (.construct ad bd)).toNat = bd.toNat <<< 16 ||| (ad.toNat <<< 8 ||| 1) := by
    simp only [encode, BitVec.toNat_or, BitVec.toNat_shiftLeft, BitVec.toNat_setWidth]
    rw [Nat.mod_eq_of_lt (a := ad.toNat) (by omega), Nat.mod_eq_of_lt (a := bd.toNat) (by omega),
      Nat.mod_eq_of_lt (by rw [Nat.shiftLeft_eq]; omega), Nat.mod_eq_of_lt (by rw [Nat.shiftLeft_eq]; omega),
      Nat.or_comm (BitVec.toNat 1), Nat.or_assoc, Nat.or_comm (BitVec.toNat 1)]
    rfl
  rw [h, ← Nat.shiftLeft_add_eq_or_of_lt (by decide : 1 < 2 ^ 8),
    ← Nat.shiftLeft_add_eq_or_of_lt (by rw [Nat.shiftLeft_eq]; omega)]
  simp only [Nat.shiftLeft_eq]
  omega

/-- The number of an INSTALL_CIPHER word. -/
theorem encode_installCipher_toNat (rounds : Byte) :
    (encode (.installCipher rounds)).toNat = 2 + 2 ^ 8 * rounds.toNat := by
  have hr := rounds.isLt
  have h : (encode (.installCipher rounds)).toNat = rounds.toNat <<< 8 ||| 2 := by
    simp only [encode, BitVec.toNat_or, BitVec.toNat_shiftLeft, BitVec.toNat_setWidth]
    rw [Nat.mod_eq_of_lt (a := rounds.toNat) (by omega), Nat.mod_eq_of_lt (by rw [Nat.shiftLeft_eq]; omega),
      Nat.or_comm]
    rfl
  rw [h, ← Nat.shiftLeft_add_eq_or_of_lt (by decide : 2 < 2 ^ 8)]
  simp only [Nat.shiftLeft_eq]
  omega

/-! ### Words as numbers -/

/-- Bits put side by side, as a number. -/
theorem append_toNat {m n : Nat} (x : BitVec m) (y : BitVec n) : (x ++ y).toNat = x.toNat * 2 ^ n + y.toNat := by
  rw [BitVec.toNat_append, ← Nat.shiftLeft_add_eq_or_of_lt y.isLt, Nat.shiftLeft_eq]

/-- A bit vector is a small constant exactly when its number is. -/
theorem eq_ofNat_iff {n : Nat} (x : BitVec n) (k : Nat) (hk : k < 2 ^ n) : x = BitVec.ofNat n k ↔ x.toNat = k := by
  constructor
  · rintro rfl; simp [Nat.mod_eq_of_lt hk]
  · intro h; apply BitVec.eq_of_toNat_eq; simp [h, Nat.mod_eq_of_lt hk]

/-- A word is the sum of its five fields (R100). -/
theorem word_toNat_fields (w : Word) : w.toNat = (opField w).toNat + 2 ^ 4 * (res0Field w).toNat
    + 2 ^ 8 * (imm1Field w).toNat + 2 ^ 16 * (imm2Field w).toNat + 2 ^ 24 * (res1Field w).toNat := by
  have := w.isLt
  simp only [opField_toNat, res0Field_toNat, imm1Field_toNat, imm2Field_toNat, res1Field_toNat]; omega

/-- The decoder, with its tests on the fields' numbers. -/
theorem decodeWord_toNat (w : Word) : decodeWord w =
    if (res0Field w).toNat ≠ 0 ∨ (res1Field w).toNat ≠ 0 then .illegal w
    else if (opField w).toNat = 1 then .construct (imm1Field w) (imm2Field w)
    else if (opField w).toNat = 2 ∧ (imm2Field w).toNat = 0 ∧ 2 ≤ (imm1Field w).toNat then .installCipher (imm1Field w)
    else if (opField w).toNat = 3 ∧ (imm1Field w).toNat = 0 ∧ (imm2Field w).toNat = 0 then .encode
    else if (opField w).toNat = 4 ∧ (imm1Field w).toNat = 0 ∧ (imm2Field w).toNat = 0 then .decode
    else if (opField w).toNat = 5 ∧ (imm1Field w).toNat = 0 ∧ (imm2Field w).toNat = 0 then .maximums
    else .illegal w := by
  unfold decodeWord
  simp only [← eq_ofNat_iff _ 0 (by decide : 0 < 2 ^ 4), ← eq_ofNat_iff _ 0 (by decide : 0 < 2 ^ 8),
    ← eq_ofNat_iff _ 1 (by decide : 1 < 2 ^ 4), ← eq_ofNat_iff _ 2 (by decide : 2 < 2 ^ 4),
    ← eq_ofNat_iff _ 3 (by decide : 3 < 2 ^ 4), ← eq_ofNat_iff _ 4 (by decide : 4 < 2 ^ 4),
    ← eq_ofNat_iff _ 5 (by decide : 5 < 2 ^ 4), ne_eq]
  rfl

/-! ### The masks of the opcode table -/

/-- Two 32-bit numbers that agree bit by bit. -/
theorem and_eq_of_bits (x m a : Nat) (hx : x < 2 ^ 32) (hm : m < 2 ^ 32) (ha : a < 2 ^ 32)
    (h : ∀ k : Fin 32, (x.testBit k && m.testBit k) = a.testBit k) : x &&& m = a := by
  apply Nat.eq_of_testBit_eq
  intro k
  rw [Nat.testBit_and]
  by_cases hk : k < 32
  · exact h ⟨k, hk⟩
  · have e : ∀ y, y < 2 ^ 32 → y.testBit k = false := fun y hy =>
      Nat.testBit_lt_two_pow (lt_of_lt_of_le hy (Nat.pow_le_pow_right (by decide) (by omega)))
    rw [e x hx, e m hm, e a ha]; rfl

/-- The mask of CONSTRUCT keeps the lowest and the highest byte. -/
theorem and_constructMask (x : Nat) (hx : x < 2 ^ 32) : x &&& 0xFF0000FF = x % 2 ^ 8 + 2 ^ 24 * (x / 2 ^ 24) := by
  apply and_eq_of_bits _ _ _ hx (by decide) (by omega)
  intro k
  rw [Nat.add_comm, Nat.testBit_two_pow_mul_add _ (by omega), Nat.testBit_mod_two_pow, Nat.testBit_div_two_pow]
  have : Nat.testBit 0xFF0000FF k = decide (k.val < 8 ∨ 24 ≤ k.val) := by revert k; decide
  rw [this]
  split_ifs with h
  · by_cases h8 : k.val < 8 <;> simp [h8]; omega
  · rw [Nat.sub_add_cancel (by omega)]; simp [show 24 ≤ k.val by omega]

/-- The mask of INSTALL_CIPHER keeps the lowest byte and the upper half. -/
theorem and_installMask (x : Nat) (hx : x < 2 ^ 32) : x &&& 0xFFFF00FF = x % 2 ^ 8 + 2 ^ 16 * (x / 2 ^ 16) := by
  apply and_eq_of_bits _ _ _ hx (by decide) (by omega)
  intro k
  rw [Nat.add_comm, Nat.testBit_two_pow_mul_add _ (by omega), Nat.testBit_mod_two_pow, Nat.testBit_div_two_pow]
  have : Nat.testBit 0xFFFF00FF k = decide (k.val < 8 ∨ 16 ≤ k.val) := by revert k; decide
  rw [this]
  split_ifs with h
  · by_cases h8 : k.val < 8 <;> simp [h8]; omega
  · rw [Nat.sub_add_cancel (by omega)]; simp [show 16 ≤ k.val by omega]

theorem constructMask_iff (w : Word) :
    w &&& 0xFF0000FF = 0x00000001 ↔ w.toNat % 2 ^ 8 + 2 ^ 24 * (w.toNat / 2 ^ 24) = 1 := by
  rw [← and_constructMask _ w.isLt]
  constructor
  · intro h; have := congrArg BitVec.toNat h; simpa using this
  · intro h; apply BitVec.eq_of_toNat_eq; simpa using h

theorem installMask_iff (w : Word) :
    w &&& 0xFFFF00FF = 0x00000002 ↔ w.toNat % 2 ^ 8 + 2 ^ 16 * (w.toNat / 2 ^ 16) = 2 := by
  rw [← and_installMask _ w.isLt]
  constructor
  · intro h; have := congrArg BitVec.toNat h; simpa using this
  · intro h; apply BitVec.eq_of_toNat_eq; simpa using h

end Sys2Proof
end

