-- ==== Sys2Proof/Laws/PerInstr.lean ====
section
/-! SUPPORT. What holds of every instruction as syntax, one lemma per constructor: its word has the fixed bits of its row of spec/opcode_table.json, and its number is below `2^32` with the reserved fields RES0 and RES1 zero for every legal command (spec/30_encoding.md R100, R102 to R104). -/

namespace Sys2Proof.Laws.EncodingRow

/-- A legal command (any row but ILLEGAL). -/
def Legal : Instr → Prop
  | .construct _ _ => True
  | .installCipher _ => True
  | .encode => True
  | .decode => True
  | .maximums => True
  | .illegal _ => False

/-- The instruction's word, under its row's mask, is its row's match; a legal command's reserved fields are zero. -/
def Statement (i : Instr) : Prop :=
  encode i &&& rowMask i = rowMatch i ∧ (Legal i → res0Field (encode i) = 0 ∧ res1Field (encode i) = 0)

theorem construct (aDigits bDigits : Byte) : Statement (.construct aDigits bDigits) := by
  have ha := aDigits.isLt; have hb := bDigits.isLt
  have he := encode_construct_toNat aDigits bDigits
  refine ⟨(constructMask_iff _).mpr (by rw [he]; omega), fun _ => ⟨BitVec.eq_of_toNat_eq ?_, BitVec.eq_of_toNat_eq ?_⟩⟩
  · rw [res0Field_toNat, he]; change _ = 0; omega
  · rw [res1Field_toNat, he]; change _ = 0; omega

theorem installCipher (rounds : Byte) : Statement (.installCipher rounds) := by
  have hr := rounds.isLt
  have he := encode_installCipher_toNat rounds
  refine ⟨(installMask_iff _).mpr (by rw [he]; omega), fun _ => ⟨BitVec.eq_of_toNat_eq ?_, BitVec.eq_of_toNat_eq ?_⟩⟩
  · rw [res0Field_toNat, he]; change _ = 0; omega
  · rw [res1Field_toNat, he]; change _ = 0; omega

theorem encode : Statement .encode := ⟨by decide, fun _ => by decide⟩

theorem decode : Statement .decode := ⟨by decide, fun _ => by decide⟩

theorem maximums : Statement .maximums := ⟨by decide, fun _ => by decide⟩

theorem illegal (word : Word) : Statement (.illegal word) :=
  ⟨BitVec.and_zero, fun h => h.elim⟩

end Sys2Proof.Laws.EncodingRow
end

