-- ==== Sys2Proof/Laws/Port.lean ====
section
/-! SUPPORT. What a turn at the port can do, said once (spec/20_memory.md R72, R75, R76; spec/40_domain_encoder.md R130, R131; spec/70_reset_and_hazards.md R250), and the register map and buffers it works on. -/

namespace Sys2Proof.Machine

theorem admitted_iff (a : Access) :
    a.admitted = true ↔ a.bytes = 4 ∧ a.beats = 1 ∧ a.off.toNat % 4 = 0 := by simp [Access.admitted]

theorem regAtAligned_offset {o : Nat} {r : Reg} (hal : o % 4 = 0) (h : regAtAligned o = some r) : r.offset = o := by
  unfold regAtAligned controlAt at h
  repeat' (split at h)
  all_goals cases h
  all_goals simp only [Reg.offset, WideReg.base, index16, index8]
  all_goals omega

/-- The register the map gives stands at its own offset. -/
theorem regAt_offset {off : Offset} {r : Reg} (h : regAt off = some r) : r.offset = off.toNat := by
  unfold regAt at h
  split at h
  · rename_i hal; exact regAtAligned_offset hal h
  · cases h

/-- Only offset 0 is CMD. -/
theorem regAt_cmd {off : Offset} (h : regAt off = some .cmd) : off.toNat = 0 := (regAt_offset h).symm

/-- Only offset 4 is STATUS. -/
theorem regAt_status_iff (off : Offset) : regAt off = some .status ↔ off.toNat = 0x004 :=
  ⟨fun h => (regAt_offset h).symm, fun h => by simp [regAt, regAtAligned, controlAt, h]⟩

theorem offset_eq_zero {off : Offset} (h : off.toNat = 0) : off = 0x000 := BitVec.eq_of_toNat_eq (by simpa using h)

/-! ### Writes -/

/-- A write to an idle block that stores into one of the writable registers. -/
def Stores (s t : State) : Prop :=
  t = { s with
    keyLen := t.keyLen, tweakLen := t.tweakLen, keyStage := t.keyStage, tweakStage := t.tweakStage
    aIn := t.aIn, bIn := t.bIn, cIn := t.cIn }

theorem Stores.refl (s : State) : Stores s s := rfl

theorem writeReg_cases (r : Reg) (v : Word) (s : State) :
    (r = .cmd ∧ writeReg r v s = s.issue v) ∨ Stores s (writeReg r v s) := by
  cases r with
  | cmd => exact .inl ⟨rfl, rfl⟩
  | wide x j => cases x <;> exact .inr (by simp only [Stores, writeReg])
  | _ => exact .inr (by simp only [Stores, writeReg])

/-- A write does one of three things: nothing, issue, or store. -/
theorem portWrite_cases (off : Offset) (v : Word) (s : State) :
    (s.busy = true ∧ portWrite off v s = s)
      ∨ (s.busy = false ∧ off.toNat = 0 ∧ portWrite off v s = s.issue v)
      ∨ (s.busy = false ∧ Stores s (portWrite off v s)) := by
  rcases hb : s.busy with _ | _
  · rcases hr : regAt off with _ | r
    · have hw : portWrite off v s = s := by simp [portWrite, hb, hr]
      rw [hw]; exact .inr (.inr ⟨rfl, Stores.refl s⟩)
    · have hw : portWrite off v s = writeReg r v s := by simp [portWrite, hb, hr]
      rw [hw]
      obtain ⟨rfl, h⟩ | h := writeReg_cases r v s
      · exact .inr (.inl ⟨rfl, regAt_cmd hr, h⟩)
      · exact .inr (.inr ⟨rfl, h⟩)
  · exact .inl ⟨rfl, by simp [portWrite, hb]⟩

/-! ### Turns -/

theorem step_nil {s : State} (h : s.order = []) : step s = engineTurn s := by
  simp only [step, nextTurn, h]

theorem step_cons {s : State} {e : PortEvent} {rest : List PortEvent} (h : s.order = e :: rest) :
    step s = takeTurn e (s.withOrder rest) := by
  simp only [step, nextTurn, h]

theorem engineTurn_busy {s : State} (h : s.busy = true) : engineTurn s = exec (decodeWord s.pend) s := by
  simp only [engineTurn, h, if_true]; rfl

theorem engineTurn_idle {s : State} (h : s.busy = false) : engineTurn s = .next s := by
  simp only [engineTurn, h]; rfl

/-- The outcomes of a host access. -/
theorem portAccess_next {a : Access} {s t : State} (h : portAccess a s = .next t) :
    (∃ off, a = ⟨.read, off, 4, 1⟩ ∧ off.toNat % 4 = 0 ∧ t = s.reply off (portRead off s))
      ∨ ∃ off v, a = ⟨.write v, off, 4, 1⟩ ∧ off.toNat % 4 = 0 ∧ t = portWrite off v s := by
  obtain ⟨kind, off, bytes, beats⟩ := a
  unfold portAccess at h
  split at h
  · rename_i hadm
    obtain ⟨rfl, rfl, hal⟩ := (admitted_iff _).mp hadm
    cases kind with
    | read =>
      simp only [readAccess] at h
      split at h
      · cases h
      · exact .inl ⟨off, rfl, hal, (Host.Outcome.next.inj h).symm⟩
    | write v => exact .inr ⟨off, v, rfl, hal, (Host.Outcome.next.inj h).symm⟩
  · cases h

/-- What a step that answers a next state did: a read, a write, the engine's turn (also when no turn is listed), or
reset. -/
inductive TurnTaken (s t : State) : Prop
  | read (off : Offset) (rest : List PortEvent) (ho : s.order = .access ⟨.read, off, 4, 1⟩ :: rest)
      (hal : off.toNat % 4 = 0)
      (ht : t = (s.withOrder rest).reply off (portRead off (s.withOrder rest)))
  | write (off : Offset) (v : Word) (rest : List PortEvent) (ho : s.order = .access ⟨.write v, off, 4, 1⟩ :: rest)
      (hal : off.toNat % 4 = 0) (ht : t = portWrite off v (s.withOrder rest))
  | engine (rest : List PortEvent)
      (ho : s.order = .engine :: rest ∨ (s.order = [] ∧ rest = []))
      (ht : engineTurn (s.withOrder rest) = .next t)
  | reset (rest : List PortEvent) (ho : s.order = .reset :: rest) (ht : t = (s.withOrder rest).applyReset)

theorem withOrder_self {s : State} {rest : List PortEvent} (h : s.order = rest) : s.withOrder rest = s := by
  subst h; rfl

theorem step_next {s t : State} (h : step s = .next t) : TurnTaken s t := by
  rcases ho : s.order with _ | ⟨e, rest⟩
  · rw [step_nil ho] at h
    exact .engine [] (.inr ⟨ho, rfl⟩) (by rwa [withOrder_self ho])
  · rw [step_cons ho] at h
    cases e with
    | access a =>
      obtain ⟨off, rfl, hal, ht⟩ | ⟨off, v, rfl, hal, ht⟩ := portAccess_next h
      · exact .read off rest ho hal ht
      · exact .write off v rest ho hal ht
    | engine => exact .engine rest (.inl ho) h
    | reset => exact .reset rest ho (Host.Outcome.next.inj h).symm
    | accessInReset a => cases h

end Sys2Proof.Machine
end

