-- ==== Sys2Proof/Laws/Registers.lean ====
section
/-! SUPPORT. The registers read and written by name: the map back from offsets, the words of wide registers, the lanes of the staging buffers, and STATUS and CONFIG as numbers (spec/10_state.md R36 to R47). -/

namespace Sys2Proof.Machine

/-! ### The map -/

/-- Every register is found at its own offset. -/
theorem regAt_of_offset (r : Reg) : regAt (BitVec.ofNat 12 r.offset) = some r := by
  cases r with
  | keyData j => revert j; decide
  | tweakData j => revert j; decide
  | wide x j => revert j; cases x <;> decide
  | _ => decide

/-- A write at a register's offset, while idle. -/
theorem portWrite_idle {s : State} (hb : s.busy = false) (r : Reg) (v : Word) :
    portWrite (BitVec.ofNat 12 r.offset) v s = writeReg r v s := by
  simp [portWrite, hb, regAt_of_offset]

theorem portWrite_busy {s : State} (hb : s.busy = true) (off : Offset) (v : Word) : portWrite off v s = s := by
  simp [portWrite, hb]

/-- A read at a register's offset. -/
theorem portRead_of_offset (s : State) (r : Reg) : portRead (BitVec.ofNat 12 r.offset) s = readReg r s := by
  simp [portRead, regAt_of_offset]

/-- Two states that agree on the register at an offset read alike there. -/
theorem portRead_eq {off : Offset} {s t : State} (h : ∀ r, regAt off = some r → readReg r t = readReg r s) :
    portRead off t = portRead off s := by
  unfold portRead; cases hr : regAt off with
  | none => rfl
  | some r => exact h r hr

/-- A read does not look at the port's order. -/
@[simp] theorem portRead_withOrder (off : Offset) (s : State) (rest : List PortEvent) :
    portRead off (s.withOrder rest) = portRead off s :=
  portRead_eq fun r _ => by
    cases r with
    | wide x j => cases x <;> rfl
    | _ => rfl

/-- A write leaves what the engine owns alone. -/
theorem portWrite_keeps (off : Offset) (v : Word) (s : State) :
    (portWrite off v s).dom = s.dom ∧ (portWrite off v s).ctx = s.ctx ∧ (portWrite off v s).cw = s.cw
      ∧ (portWrite off v s).err = s.err ∧ (portWrite off v s).order = s.order
      ∧ (portWrite off v s).replies = s.replies := by
  obtain ⟨-, h⟩ | ⟨-, -, h⟩ | ⟨-, h⟩ := portWrite_cases off v s
  · rw [h]; simp
  · rw [h]; simp
  · rw [Stores] at h; rw [h]; simp

/-! ### Lanes of a staging buffer -/

theorem withLanes_get (buf : Vector Byte 64) (j : Fin 16) (v : Word) (k : Fin 64) :
    (withLanes buf j v)[k] = if k.val / 4 = j.val then laneOf v (k.val % 4) else buf[k] := by
  simp [withLanes]

/-- Each lane of the word at a buffer's bytes is the byte it stands for. -/
theorem laneOf_lanesAt (buf : Vector Byte 64) (j : Fin 16) (k : Fin 64) (hk : k.val / 4 = j.val) :
    laneOf (lanesAt buf j) (k.val % 4) = buf[k] := by
  obtain ⟨k, hlt⟩ := k
  have hk' : k / 4 = j.val := hk
  have h4 : k % 4 = 0 ∨ k % 4 = 1 ∨ k % 4 = 2 ∨ k % 4 = 3 := by omega
  have hl := laneOf_wordOfLanes (buf[4 * j.val]'(by omega)) (buf[4 * j.val + 1]'(by omega))
    (buf[4 * j.val + 2]'(by omega)) (buf[4 * j.val + 3]'(by omega))
  rcases h4 with h | h | h | h
  all_goals
    have e : k = 4 * j.val + k % 4 := by omega
    rw [h] at e
    subst e
    simp only [h]
  · exact hl.1
  · exact hl.2.1
  · exact hl.2.2.1
  · exact hl.2.2.2

/-- The word just written is read back. -/
theorem lanesAt_withLanes (buf : Vector Byte 64) (j : Fin 16) (v : Word) : lanesAt (withLanes buf j v) j = v := by
  have g : ∀ m (hm : m < 4), (withLanes buf j v)[4 * j.val + m]'(by omega) = laneOf v m := by
    intro m hm
    have h := withLanes_get buf j v ⟨4 * j.val + m, by omega⟩
    rw [if_pos (by simp; omega)] at h
    have e : (4 * j.val + m) % 4 = m := by omega
    simp only [e] at h
    exact h
  have g0 := g 0 (by omega); have g1 := g 1 (by omega); have g2 := g 2 (by omega); have g3 := g 3 (by omega)
  simp only [Nat.add_zero] at g0
  unfold lanesAt
  rw [g0, g1, g2, g3, wordOfLanes_laneOf]

/-- Writing the same lanes twice is writing them once. -/
theorem withLanes_idem (buf : Vector Byte 64) (j : Fin 16) (v : Word) :
    withLanes (withLanes buf j v) j v = withLanes buf j v := by
  apply Vector.ext
  intro i hi
  have h1 := withLanes_get (withLanes buf j v) j v ⟨i, hi⟩
  have h2 := withLanes_get buf j v ⟨i, hi⟩
  simp only [Fin.getElem_fin] at h1 h2
  rw [h1, h2]; split <;> simp_all

/-! ### Words of a wide register -/

theorem wordOf_toNat (x : Wide) (j : Nat) : (wordOf x j).toNat = x.toNat / 2 ^ (32 * j) % 2 ^ 32 := by
  simp [wordOf, Nat.shiftRight_eq_div_pow]

theorem wordOf_withWord (x : Wide) (v : Word) (j k : Fin 8) :
    wordOf (withWord x j.val v) k.val = if k = j then v else wordOf x k.val := by
  apply BitVec.eq_of_getLsbD_eq
  intro i hi
  have hj := j.isLt; have hk := k.isLt
  have hi' : i < 32 := hi
  have hm : ∀ n, (0xFFFFFFFF : Wide).getLsbD n = decide (n < 32) := by
    intro n
    have e : (0xFFFFFFFF : Wide).toNat = 2^32 - 1 := rfl
    rw [BitVec.getLsbD, e, Nat.testBit_two_pow_sub_one]
  simp only [wordOf, withWord]
  rw [BitVec.getLsbD_extractLsb']
  simp only [BitVec.getLsbD_or, BitVec.getLsbD_and, BitVec.getLsbD_not, BitVec.getLsbD_shiftLeft, hm, BitVec.getLsbD_setWidth]
  by_cases h : k = j
  · subst h
    have e1 : 32 * k.val + i < 256 := by omega
    have e2 : ¬ (32 * k.val + i < 32 * k.val) := by omega
    have e3 : 32 * k.val + i - 32 * k.val = i := by omega
    simp [hi', e1, e3]; omega
  · have hne : k.val ≠ j.val := fun e => h (Fin.ext e)
    rw [if_neg h]
    rw [BitVec.getLsbD_extractLsb']
    have e1 : 32 * k.val + i < 256 := by omega
    rcases Nat.lt_or_ge (32 * k.val + i) (32 * j.val) with h1 | h1
    · simp [hi', e1, h1]
    · have : ¬ (32 * k.val + i - 32 * j.val < 32) := by omega
      have hv : v.getLsbD (32 * k.val + i - 32 * j.val) = false := BitVec.getLsbD_of_ge _ _ (by omega)
      simp [hi', e1, this, hv]

/-- A wide value is the sum of its words (R47). -/
theorem wide_sum (x : Wide) : x.toNat = ∑ j ∈ Finset.range 8, (wordOf x j).toNat * 2 ^ (32 * j) := by
  have := x.isLt
  simp only [Finset.sum_range_succ, Finset.sum_range_zero, wordOf_toNat]
  omega

/-- A wide value is given by its words. -/
theorem wide_ext {x y : Wide} (h : ∀ j : Fin 8, wordOf x j.val = wordOf y j.val) : x = y := by
  apply BitVec.eq_of_toNat_eq
  rw [wide_sum x, wide_sum y]
  apply Finset.sum_congr rfl
  intro j hj
  rw [h ⟨j, by simpa using hj⟩]

theorem withWord_idem (x : Wide) (j : Fin 8) (v : Word) :
    withWord (withWord x j.val v) j.val v = withWord x j.val v := by
  apply wide_ext; intro k
  rw [wordOf_withWord, wordOf_withWord]; split <;> rfl

/-! ### STATUS and CONFIG -/

theorem statusWord_toNat (s : State) : s.statusWord.toNat
    = s.err.toNat * 256 + (s.ctx.isSome.toNat * 4 + s.dom.isSome.toNat * 2 + s.busy.toNat) := by
  simp only [State.statusWord, append_toNat, BitVec.toNat_ofBool]
  simp
  omega

theorem configWord_toNat (s : State) : s.configWord.toNat
    = s.roundsField.toNat * 65536 + s.bDigitsField.toNat * 256 + s.aDigitsField.toNat := by
  simp only [State.configWord, append_toNat]; simp; omega

end Sys2Proof.Machine
end

