-- ==== Sys2Proof/Laws/Runs.lean ====
section
/-! SUPPORT. Runs of several turns, where a host program ends (spec/70_reset_and_hazards.md R259), and what carries the block's invariant from state to state (spec/20_memory.md R79). -/

namespace Sys2Proof.Machine

/-- One step more. -/
theorem run_next {k : Nat} {s t : State} (h : step s = .next t) :
    Host.Core.run Sys2Proof.core (k + 1) s = Host.Core.run Sys2Proof.core k t := by
  have h' : Sys2Proof.core.step s = .next t := h
  simp only [Host.Core.run, h']

theorem run_zero (s : State) : Host.Core.run Sys2Proof.core 0 s = .next s := rfl

/-- An admitted write's turn is the port's write. -/
theorem step_write {s : State} {off : Offset} {v : Word} {rest : List PortEvent} (hal : off.toNat % 4 = 0)
    (h : s.order = .access ⟨.write v, off, 4, 1⟩ :: rest) :
    step s = .next (portWrite off v (s.withOrder rest)) := by
  have hadm : (⟨.write v, off, 4, 1⟩ : Access).admitted = true := (admitted_iff _).mpr ⟨rfl, rfl, hal⟩
  rw [step_cons h]
  simp only [takeTurn, portAccess, hadm, if_true]

/-- An admitted read's turn, of another register than STATUS or of a STATUS that shows a defined code. -/
theorem step_read {s : State} {off : Offset} {rest : List PortEvent} (hal : off.toNat % 4 = 0)
    (hok : off.toNat ≠ 4 ∨ s.err.toNat ≤ 5) (h : s.order = .access ⟨.read, off, 4, 1⟩ :: rest) :
    step s = .next ((s.withOrder rest).reply off (portRead off s)) := by
  have hadm : (⟨.read, off, 4, 1⟩ : Access).admitted = true := (admitted_iff _).mpr ⟨rfl, rfl, hal⟩
  rw [step_cons h]
  simp only [takeTurn, portAccess, hadm, if_true, readAccess]
  rw [if_neg, portRead_withOrder]
  rintro ⟨h1, h2⟩
  rw [regAt_status_iff] at h1
  have h3 : ¬ s.err.toNat ≤ 5 := of_decide_eq_false h2
  omega

/-! ### Runs of writes and reads, by register -/

theorem offset_aligned (r : Reg) : r.offset < 0x1E0 ∧ r.offset % 4 = 0 := by
  cases r with
  | wide x j => have := j.isLt; cases x <;> simp only [Reg.offset, WideReg.base] <;> omega
  | keyData j => have := j.isLt; simp only [Reg.offset]; omega
  | tweakData j => have := j.isLt; simp only [Reg.offset]; omega
  | _ => simp [Reg.offset]

theorem offset_toNat (r : Reg) : (BitVec.ofNat 12 r.offset).toNat = r.offset := by
  have := offset_aligned r
  simp only [BitVec.toNat_ofNat]; omega

/-- The turns that write the listed words to the listed registers. -/
def writeTurns (ws : List (Reg × Word)) : List PortEvent := ws.map fun w => wr w.1.offset w.2

/-- What those writes leave of an idle block. -/
def afterWrites : List (Reg × Word) → State → State
  | [], s => s
  | w :: ws, s => afterWrites ws (writeReg w.1 w.2 s)

theorem writeReg_withOrder (r : Reg) (v : Word) (s : State) (rest : List PortEvent) :
    writeReg r v (s.withOrder rest) = (writeReg r v s).withOrder rest := by
  cases r with
  | wide x j => cases x <;> rfl
  | _ => rfl

theorem writeReg_busy {r : Reg} (h : r ≠ .cmd) (v : Word) (s : State) : (writeReg r v s).busy = s.busy := by
  rcases writeReg_cases r v s with ⟨hr, -⟩ | hs
  · exact absurd hr h
  · rw [Stores] at hs; rw [hs]

/-- Writes to an idle block, none of them to CMD, are carried out one after another. -/
theorem run_writes : ∀ (ws : List (Reg × Word)) (s : State) (rest : List PortEvent), s.busy = false →
    (∀ w ∈ ws, w.1 ≠ .cmd) →
    Host.Core.run Sys2Proof.core ws.length (s.withOrder (writeTurns ws ++ rest))
      = .next ((afterWrites ws s).withOrder rest)
  | [], _, _, _, _ => rfl
  | (r, v) :: ws, s, rest, hb, hw => by
    have hal : (BitVec.ofNat 12 r.offset).toNat % 4 = 0 := by rw [offset_toNat]; exact (offset_aligned r).2
    have hr : r ≠ .cmd := hw (r, v) (by simp)
    have h : step (s.withOrder (writeTurns ((r, v) :: ws) ++ rest))
        = .next ((writeReg r v s).withOrder (writeTurns ws ++ rest)) := by
      have hw' := portWrite_idle (s := s.withOrder (writeTurns ws ++ rest)) hb r v
      rw [writeReg_withOrder] at hw'
      exact (step_write hal rfl).trans (congrArg _ hw')
    have ih := run_writes ws (writeReg r v s) rest (by rw [writeReg_busy hr]; exact hb) fun w hm => hw w (by simp [hm])
    exact (run_next h).trans ih

/-- The turns that read the listed registers. -/
def readTurns (rs : List Reg) : List PortEvent := rs.map fun r => rd r.offset

/-- Reads of registers other than STATUS answer the registers' values, the last one first, and change nothing else. -/
theorem run_reads : ∀ (rs : List Reg) (s : State) (rest : List PortEvent), (∀ r ∈ rs, r ≠ .status) →
    Host.Core.run Sys2Proof.core rs.length (s.withOrder (readTurns rs ++ rest))
      = .next { s with
          order := rest
          replies := (rs.map fun r => ⟨BitVec.ofNat 12 r.offset, readReg r s⟩).reverse ++ s.replies }
  | [], _, _, _ => rfl
  | r :: rs, s, rest, hw => by
    have hal : (BitVec.ofNat 12 r.offset).toNat % 4 = 0 := by rw [offset_toNat]; exact (offset_aligned r).2
    have hr : r ≠ .status := hw r (by simp)
    have h4 : (BitVec.ofNat 12 r.offset).toNat ≠ 4 := fun h =>
      hr (by have := (regAt_status_iff _).mpr h; rw [regAt_of_offset] at this; exact Option.some.inj this)
    have h : step (s.withOrder (readTurns (r :: rs) ++ rest))
        = .next ((s.reply (BitVec.ofNat 12 r.offset) (readReg r s)).withOrder (readTurns rs ++ rest)) := by
      refine (step_read hal (.inl h4) rfl).trans ?_
      rw [portRead_withOrder, portRead_of_offset]; rfl
    have ih := run_reads rs (s.reply (BitVec.ofNat 12 r.offset) (readReg r s)) rest fun q hm => hw q (by simp [hm])
    have hrd : ∀ q, readReg q (s.reply (BitVec.ofNat 12 r.offset) (readReg r s)) = readReg q s := by
      intro q
      cases q with
      | wide x j => cases x <;> rfl
      | _ => rfl
    refine (run_next h).trans (ih.trans ?_)
    simp only [hrd, List.map_cons, List.reverse_cons, List.append_assoc, List.singleton_append]
    rfl

/-- The invariant looks at four components only. -/
theorem State.Inv.congr {s t : State} (h : s.Inv) (h1 : t.dom = s.dom) (h2 : t.ctx = s.ctx) (h3 : t.cw = s.cw)
    (h4 : t.err = s.err) : t.Inv := by
  refine ⟨?_, ?_, ?_, ?_⟩
  · rw [h1]; exact h.domain_legal
  · rw [h1, h2]; exact h.context_fits
  · rw [h3]; exact h.walk_count
  · rw [h4]; exact h.err_defined

/-- The engine's turn always answers a next state. -/
theorem engineTurn_answers (s : State) : ∃ t, engineTurn s = .next t := by
  rcases hb : s.busy with _ | _
  · exact ⟨s, engineTurn_idle hb⟩
  · rw [engineTurn_busy hb]
    obtain ⟨e, -, h⟩ | ⟨w, -, h⟩ := exec_ends (decodeWord s.pend) s <;> exact ⟨_, h⟩

/-! ### The end of a host program -/

/-- A step takes one turn off the order, and with none listed it leaves the block idle. -/
theorem step_order_length {s t : State} (h : step s = .next t) :
    t.order.length = s.order.length - 1 ∧ (s.order = [] → t.busy = false) := by
  cases step_next h with
  | read off rest ho _ ht => subst ht; simp [ho]
  | write off v rest ho _ ht =>
    refine ⟨?_, by simp [ho]⟩
    obtain ⟨-, hw⟩ | ⟨-, -, hw⟩ | ⟨-, hw⟩ := portWrite_cases off v (s.withOrder rest)
    · simp [ht, hw, ho]
    · simp [ht, hw, ho]
    · rw [ht, hw]; simp [ho]
  | engine rest ho ht =>
    have hrest : rest.length = s.order.length - 1 := by
      obtain ho | ⟨ho, rfl⟩ := ho <;> simp [ho]
    rcases hb : (s.withOrder rest).busy with _ | _
    · rw [engineTurn_idle hb] at ht
      cases ht; exact ⟨hrest, fun _ => hb⟩
    · rw [engineTurn_busy hb] at ht
      obtain ⟨e, -, hx⟩ | ⟨w, hw, hx⟩ := exec_ends (decodeWord (s.withOrder rest).pend) (s.withOrder rest)
      · rw [hx] at ht; cases ht; exact ⟨hrest, fun _ => rfl⟩
      · rw [hx] at ht; cases ht
        exact ⟨(congrArg List.length hw.order_eq).trans hrest, fun _ => rfl⟩
  | reset rest ho ht => subst ht; simp [ho]

/-- `runToEnd` stops at a state of the run, and the program had ended in no earlier one. -/
theorem runToEnd_first {later : Nat} : ∀ {fuel : Nat} {s u : State}, runToEnd later fuel s = .next u →
    ∃ n, Host.Core.run Sys2Proof.core n s = .next u
      ∧ ∀ m, m < n → ∀ v, Host.Core.run Sys2Proof.core m s = .next v → v.programEnded later = false
  | 0, s, u, h => ⟨0, h, fun _ hm => absurd hm (Nat.not_lt_zero _)⟩
  | fuel + 1, s, u, h => by
    simp only [runToEnd] at h
    split at h
    · exact ⟨0, h, fun _ hm => absurd hm (Nat.not_lt_zero _)⟩
    · rename_i hne
      split at h
      · rename_i t ht
        obtain ⟨n, hrun, hmin⟩ := runToEnd_first h
        refine ⟨n + 1, (run_next ht).trans hrun, fun m hm v hv => ?_⟩
        cases m with
        | zero => cases hv; simpa using hne
        | succ m => exact hmin m (Nat.lt_of_succ_lt_succ hm) v ((run_next ht).symm.trans hv)
      · cases h
      · cases h

theorem runToEnd_of_ended {later : Nat} {s : State} (h : s.programEnded later = true) (fuel : Nat) :
    runToEnd later fuel s = .next s := by
  cases fuel with
  | zero => rfl
  | succ k => rw [runToEnd, if_pos h]

/-- A step with no turn listed ends every program. -/
theorem programEnded_of_nil {later : Nat} {s t : State} (hs : s.order = []) (ht : step s = .next t) :
    t.programEnded later = true := by
  obtain ⟨hlen, hidle⟩ := step_order_length ht
  simp [State.programEnded, hlen, hidle hs, hs]

/-- With fuel for every listed turn and one more, `runToEnd` answers a state in which the program has ended. -/
theorem runToEnd_ended {later : Nat} : ∀ {fuel : Nat} {s u : State}, s.order.length < fuel →
    runToEnd later fuel s = .next u → u.programEnded later = true
  | fuel + 1, s, u, hf, h => by
    simp only [runToEnd] at h
    split at h
    · rename_i he; cases h; exact he
    · split at h
      · rename_i t ht
        rcases hs : s.order with _ | ⟨e, rest⟩
        · have het : t.programEnded later = true := programEnded_of_nil hs ht
          rw [runToEnd_of_ended het] at h; cases h; exact het
        · refine runToEnd_ended ?_ h
          rw [(step_order_length ht).1]; rw [hs] at hf ⊢; simp only [List.length_cons] at hf ⊢; omega
      · cases h
      · cases h

/-- With that fuel, the first state of a run in which the program has ended is the one that `runToEnd` answers. -/
theorem runToEnd_of_run {later : Nat} : ∀ {n fuel : Nat} {s u : State}, s.order.length < fuel →
    Host.Core.run Sys2Proof.core n s = .next u → u.programEnded later = true →
    (∀ m, m < n → ∀ v, Host.Core.run Sys2Proof.core m s = .next v → v.programEnded later = false) →
    runToEnd later fuel s = .next u
  | 0, fuel, s, u, _, hrun, he, _ => by cases hrun; exact runToEnd_of_ended he fuel
  | n + 1, fuel + 1, s, u, hf, hrun, he, hmin => by
    have hne : s.programEnded later = false := hmin 0 (Nat.succ_pos _) s rfl
    rcases ht : step s with t | f | r
    · have hrec : runToEnd later fuel t = .next u := by
        have hmin' : ∀ m, m < n → ∀ v, Host.Core.run Sys2Proof.core m t = .next v → v.programEnded later = false :=
          fun m hm v hv => hmin (m + 1) (Nat.succ_lt_succ hm) v ((run_next ht).trans hv)
        have hrun' := (run_next ht).symm.trans hrun
        rcases hs : s.order with _ | ⟨e, rest⟩
        · have het : t.programEnded later = true := programEnded_of_nil hs ht
          cases n with
          | zero => cases hrun'; exact runToEnd_of_ended het fuel
          | succ n => exact absurd (hmin' 0 (Nat.succ_pos _) t rfl) (by simp [het])
        · refine runToEnd_of_run ?_ hrun' he hmin'
          rw [(step_order_length ht).1]; rw [hs] at hf ⊢; simp only [List.length_cons] at hf ⊢; omega
      simpa [runToEnd, hne, ht] using hrec
    all_goals
      have ht' : Sys2Proof.core.step s = _ := ht
      simp only [Host.Core.run, ht'] at hrun
      cases hrun

/-- What `programEnd` answers (R259): the first state of the run in which the program has ended. -/
theorem programEnd_next_iff {turns : List HostTurn} {s u : State} :
    programEnd turns s = .next u ↔
      u.programEnded (turnsAfterProgram turns) = true
      ∧ ∃ n, Host.Core.run Sys2Proof.core n (s.withOrder (turns.map (·.event))) = .next u
        ∧ ∀ m, m < n → ∀ v, Host.Core.run Sys2Proof.core m (s.withOrder (turns.map (·.event))) = .next v →
            v.programEnded (turnsAfterProgram turns) = false := by
  have hf : (s.withOrder (turns.map (·.event))).order.length < turns.length + 1 := by simp
  constructor
  · intro h; exact ⟨runToEnd_ended hf h, runToEnd_first h⟩
  · rintro ⟨he, n, hrun, hmin⟩; exact runToEnd_of_run hf hrun he hmin

end Sys2Proof.Machine
end

