-- ==== Sys2Proof/Tests/Slice0.lean ====
section
/-! SUPPORT. Tests of the author's own, and the witnesses of the statements' hypotheses. Expected values come from spec/95_test_vectors.md (the vector is named), from spec/30_encoding.md or from hand calculation out of the rules. -/

namespace Sys2Proof.Tests

open Sys2Proof.Machine

/-! ### Helpers -/

/-- TOY_RF, TOY_KEY_OK and W_F of 95_test_vectors.md section 0, with the default guard. -/
def toy : Params where
  rf key tweak i x :=
    ((key.map (·.toNat)).sum + 2 * (tweak.map (·.toNat)).sum + 3 * i + x * x + 1) % 65536
  rfKeyOk key := decide (1 ≤ key.length)
  roundWidth := 16
  walkLimit := 4294967295
  ffxBase := 0x40000000

/-- TOY_RF with `CW_LIMIT = 1` (vectors W8, W9). -/
def toy1 : Params := { toy with walkLimit := 1 }

/-- TOY_RF with a round function that rejects every key (95_test_vectors.md section 2.4, last line). -/
def toyNoKey : Params := { toy with rfKeyOk := fun _ => false }

/-- The context of 95_test_vectors.md section 2.6. -/
def ctx2 : CipherContext := ⟨[1, 2, 3, 4], [5, 6], 2, 32⟩

/-- Domain (1, 2), idle, operands A = 3, B = 7, C = 307. -/
def plain12 : State :=
  { State.reset with dom := some ⟨1, 2⟩, aIn := 3, bIn := 7, cIn := 307 }

/-- Domain (1, 2) with the context `ctx2`. -/
def cipher12 : State := { plain12 with ctx := some ctx2 }

/-- Domain (1, 1) with its context. -/
def cipher11 : State :=
  { State.reset with dom := some ⟨1, 1⟩, ctx := some ⟨[1, 2, 3, 4], [5, 6], 2, 10⟩, aIn := 3, bIn := 7, cIn := 58 }

/-- Domain (1, 2) with key bytes 1, 2, 3, 4 and tweak bytes 5, 6 staged. -/
def staged12 : State :=
  { plain12 with
    keyLen := 4, tweakLen := 2
    keyStage := withLanes plain12.keyStage 0 0x04030201
    tweakStage := withLanes plain12.tweakStage 0 0x00000605 }

/-- An issued command. -/
def busyWith (w : Word) (s : State) : State := { s with pend := w, busy := true }

/-! ### Well-formedness: each check refuses an ill-formed term -/

theorem test_wellFormed_rounds : Instr.wellFormed (.installCipher 0) = false
    ∧ Instr.wellFormed (.installCipher 1) = false ∧ Instr.wellFormed (.installCipher 2) = true := by decide

theorem test_wellFormed_illegal : Instr.wellFormed (.illegal 0x00182801) = false
    ∧ Instr.wellFormed (.illegal 0x00000202) = false ∧ Instr.wellFormed (.illegal 0x00000003) = false
    ∧ Instr.wellFormed (.illegal 0x00000004) = false ∧ Instr.wellFormed (.illegal 0x00000005) = false
    ∧ Instr.wellFormed (.illegal 0x00000102) = true := by decide

/-! ### Decoding: words written out from 30_encoding.md and the table of 95_test_vectors.md section 2.2 -/

/-- OP 0001, RES0 0000, IMM1 00101000 (40), IMM2 00011000 (24), RES1 00000000. -/
theorem test_decode_construct : decodeWord 0b00000000_00011000_00101000_0000_0001 = .construct 40 24
    ∧ decodeWord 0x00FFFF01 = .construct 255 255 ∧ decodeWord 0x00020101 = .construct 1 2 := by decide

/-- OP 0010, IMM1 00000010 (2); and 255 rounds. -/
theorem test_decode_installCipher : decodeWord 0b00000000_00000000_00000010_0000_0010 = .installCipher 2
    ∧ decodeWord 0x0000FF02 = .installCipher 255 := by decide

theorem test_decode_plain : decodeWord 0b0011 = .encode ∧ decodeWord 0b0100 = .decode
    ∧ decodeWord 0b0101 = .maximums := by decide

theorem test_decode_illegal : decodeWord 0x00000000 = .illegal 0 ∧ decodeWord 0x00000102 = .illegal 0x102
    ∧ decodeWord 0x00010202 = .illegal 0x10202 ∧ decodeWord 0x00000103 = .illegal 0x103
    ∧ decodeWord 0x00010004 = .illegal 0x10004 ∧ decodeWord 0x01000005 = .illegal 0x1000005
    ∧ decodeWord 0x000000F1 = .illegal 0xF1 ∧ decodeWord 0x0000000F = .illegal 0xF := by decide

theorem test_decodeTableWord : decodeTableWord 32 0x00182801 = some (.construct 40 24)
    ∧ decodeTableWord 8 0xFFFFFF03 = some .encode ∧ decodeTableWord 40 3 = none := by decide

theorem test_decodeBytes : decodeBytes [0x01, 0x28, 0x18, 0x00, 0x7F] = .ok (.construct 40 24, [0x7F])
    ∧ decodeBytes [0x01, 0x28, 0x18] = .error .truncated := by
  constructor <;> rfl

theorem test_disassemble : disassemble (.construct 40 24) = "construct 40, 24"
    ∧ disassemble (.installCipher 2) = "install_cipher 2" ∧ disassemble (.illegal 0x13) = ".word 0x00000013" := by
  decide

/-! ### Arithmetic -/

/-- R10's examples, and a non-square beside a square. -/
theorem test_ceilSqrt : ceilSqrt 100 = 10 ∧ ceilSqrt 1000 = 32 ∧ ceilSqrt 100000 = 317 ∧ ceilSqrt 1 = 1
    ∧ ceilSqrt 101 = 11 := by decide

/-- R170's radix of the scenario domain, and section 2.6's of the largest. -/
theorem test_ceilSqrt_large : ceilSqrt (10 ^ 64) = 10 ^ 32
    ∧ ceilSqrt (10 ^ 77) = 316227766016837933199889354443271853372 := by decide +kernel

/-! ### Commands (at most two a command) -/

/-- 2.3: `construct 1, 2` on the reset state: CONFIG 0x00000201, STATUS 0x00000002. -/
theorem test_construct : ∃ t, exec (.construct 1 2) State.reset = .next t ∧ t.configWord = 0x00000201
    ∧ t.statusWord = 0x00000002 := ⟨_, rfl, by decide, by decide⟩

/-- 2.3: `construct 0, 0` with a cipher installed: STATUS 0x00000106, CONFIG 0x00020201. -/
theorem test_construct_fails : ∃ t, exec (.construct 0 0) cipher12 = .next t ∧ t.configWord = 0x00020201
    ∧ t.statusWord = 0x00000106 := ⟨_, rfl, by decide, by decide⟩

/-- 2.4: the staged bytes are installed: `ctx = ([1,2,3,4], [5,6], 2, 32)`, CONFIG 0x00020201. -/
theorem test_installCipher : ∃ t, installCipherWith toy 2 staged12 = .next t ∧ t.ctx = some ctx2
    ∧ t.configWord = 0x00020201 := ⟨_, rfl, by decide, by decide⟩

/-- 2.4: KEY_LEN = 0 and TWEAK_LEN = 65: ERR 2, and the cipher stays. -/
theorem test_installCipher_fails : ∃ t, exec (.installCipher 3) { cipher12 with tweakLen := 65 } = .next t
    ∧ t.statusWord = 0x00000206 ∧ t.ctx = some ctx2 := ⟨_, rfl, by decide, rfl⟩

/-- 2.5: ENCODE (3, 7) is 307. -/
theorem test_encode : ∃ t, exec .encode plain12 = .next t ∧ t.cOut = 307 ∧ t.cw = 0 := ⟨_, rfl, by decide, rfl⟩

/-- W2: ENCODE (1, 65) walks twice, to 158; CW_COUNT shows the count (10_state.md R40). -/
theorem test_encode_walks : ∃ t, encodeWith toy { cipher12 with aIn := 1, bIn := 65 } = .next t ∧ t.cOut = 158
    ∧ portRead 0x00C t = 2 := ⟨_, rfl, by decide, by decide⟩

/-- 2.5: DECODE 307 is (3, 7). -/
theorem test_decode : ∃ t, exec .decode plain12 = .next t ∧ t.aOut = 3 ∧ t.bOut = 7 := ⟨_, rfl, by decide, by decide⟩

/-- W3: DECODE 158 walks back to (1, 65). -/
theorem test_decode_walks : ∃ t, decodeWith toy { cipher12 with cIn := 158 } = .next t ∧ t.aOut = 1 ∧ t.bOut = 65
    ∧ t.cw = 2 := ⟨_, rfl, by decide, by decide, by decide⟩

/-- 2.5: MAXIMUMS of (40, 24): the low two words of A_OUT and B_OUT. -/
theorem test_maximums : ∃ t, exec .maximums { plain12 with dom := some ⟨40, 24⟩ } = .next t
    ∧ wordOf t.aOut 0 = 0xFFFFFFFF ∧ wordOf t.aOut 1 = 0xB9F560FF ∧ wordOf t.aOut 4 = 0x0000001D
    ∧ wordOf t.bOut 0 = 0xA0FFFFFF ∧ wordOf t.bOut 2 = 0x0000D3C2 :=
  ⟨_, rfl, by decide, by decide, by decide, by decide, by decide⟩

/-- 2.7: `.word 0x00000013` on the reset state: STATUS 0x00000500. -/
theorem test_illegal : ∃ t, exec (.illegal 0x13) State.reset = .next t ∧ t.statusWord = 0x00000500 :=
  ⟨_, rfl, by decide⟩

/-! ### The engine (2.6) and the port (2.1) -/

/-- F1, F2, F3, F5, F9. -/
theorem test_transform : transformT toy.rf ctx2 307 = 608 ∧ transformTinv toy.rf ctx2 608 = 307
    ∧ transformT toy.rf ctx2 165 = 1002 ∧ transformTinv toy.rf ctx2 158 = 1002
    ∧ transformT toy.rf { ctx2 with rounds := 3 } 307 = 26 := by decide

/-- W8, W9, W10. -/
theorem test_guard : fwd toy1 ctx2 1000 165 = none ∧ inv toy1 ctx2 1000 158 = none
    ∧ fwd { toy with walkLimit := 2 } ctx2 1000 165 = some (158, 2) := by decide

/-- V4: KEY_DATA0 reads 0 and its bytes 0 to 3 are 1, 2, 3, 4. -/
theorem test_keyData : portRead 0x040 (portWrite 0x040 0x04030201 State.reset) = 0
    ∧ (portWrite 0x040 0x04030201 State.reset).keyStage.toList.take 5 = [1, 2, 3, 4, 0] := by decide

/-- V5: TWEAK_DATA0, little-endian. -/
theorem test_tweakData : portRead 0x080 (portWrite 0x080 0x11223344 State.reset) = 0x11223344
    ∧ (portWrite 0x080 0x11223344 State.reset).tweakStage.toList.take 4 = [0x44, 0x33, 0x22, 0x11] := by decide

/-- V6, V7: KEY_LEN and TWEAK_LEN keep seven bits. -/
theorem test_lengths : portRead 0x010 (portWrite 0x010 0xFFFFFFFF State.reset) = 0x0000007F
    ∧ portRead 0x014 (portWrite 0x014 0x00000080 State.reset) = 0 := by decide

/-- V8, V9, V10, V12: read-only and reserved offsets ignore writes. -/
theorem test_ignored : portWrite 0x004 0xFFFFFFFF State.reset = State.reset
    ∧ portWrite 0x018 5 State.reset = State.reset ∧ portWrite 0xFFC 5 State.reset = State.reset
    ∧ portWrite 0x1C0 7 State.reset = State.reset := by decide

/-- V11, V13: word 0 is the least significant and word 7 the most. -/
theorem test_operands : (portWrite 0x100 0x006D9E44 State.reset).aIn = 7183940
    ∧ (portWrite 0x11C 0x80000000 State.reset).aIn.toNat = 2 ^ 255 := by decide

/-- V14: a 16-bit access has no step. -/
theorem test_refused : step { State.reset with order := [.access ⟨.read, 0x004, 2, 1⟩] } = .refused .accessNotAdmitted :=
  rfl

/-- R70: the window's first and last bus addresses, and the one after it. -/
theorem test_window : memRead toy 0x40000000 = some (rd 0x000) ∧ memRead toy 0x40000FFC = some (rd 0xFFC)
    ∧ memRead toy 0x40001000 = none ∧ memWrite toy 0x40000100 3 = some (wr 0x100 3) := by decide

/-- 2.1, the busy window: a write while ENCODE is pending is ignored, and the completion gives 307. -/
theorem test_busy : Host.Core.run Sys2Proof.core 3 { plain12 with order := [issueCommand .encode, wr 0x100 5, .engine] }
    = .next { plain12 with pend := 3, cOut := 307 } := rfl

/-- 2.8: reset before the completion abandons the command. -/
theorem test_reset : Host.Core.run Sys2Proof.core 2 { plain12 with order := [issueCommand .encode, .reset] }
    = .next State.reset := rfl

/-- `withFetchWord` on the reset state: the very next step runs the word's instruction. -/
theorem test_withFetchWord : step (State.reset.withFetchWord 32 0x00020101)
    = .next { State.reset with dom := some ⟨1, 2⟩, pend := 0x00020101 } := rfl

/-- P4's key and tweak bytes: `setkey` writes 0x16157E2B first, `settweak "8675309"` ends with 0x00393033. -/
theorem test_setkey : setkey [0x2B, 0x7E, 0x15, 0x16] = [wr 0x010 4, wr 0x040 0x16157E2B]
    ∧ settweak [0x38, 0x36, 0x37, 0x35, 0x33, 0x30, 0x39] = [wr 0x014 7, wr 0x080 0x35373638, wr 0x084 0x00393033] := by
  decide

/-- A `run` with a `wait` of one poll before the completion ends the program. -/
theorem test_run : ∃ t, Host.Core.run Sys2Proof.core 4 { plain12 with order := runCommand .maximums 1 } = .next t
    ∧ t.programEnded 0 = true ∧ t.replies = [⟨0x004, 0x2⟩, ⟨0x004, 0x3⟩] := ⟨_, rfl, by decide, by decide⟩

/-- R259: a program that has written KEY_LEN has ended there, with a reset, another host's access and an idle engine turn
still listed; they are no part of its end state. -/
theorem test_programEnd_idle :
    programEnd [⟨true, wr 0x010 4⟩, ⟨false, .reset⟩, ⟨false, wr 0x010 9⟩, ⟨false, .engine⟩] State.reset
      = .next { State.reset with keyLen := 4, order := [.reset, wr 0x010 9, .engine] } := rfl

/-- R259: after a last access that issues a command the program goes on to the completion, and no further. -/
theorem test_programEnd_busy :
    programEnd [⟨true, issueCommand .maximums⟩, ⟨false, rd 0x00C⟩, ⟨false, .engine⟩, ⟨false, .reset⟩] plain12
      = .next { plain12 with pend := 5, aOut := 9, bOut := 99, order := [.reset], replies := [⟨0x00C, 0⟩] } := rfl

/-! ### Witnesses: for every statement with hypotheses, values that meet them, at the ends of their ranges -/

theorem toy_wf : toy.Wf where
  rf_lt _ _ _ _ := Nat.mod_lt _ (by decide)
  empty_key := by decide
  limit_pos := by decide
  limit_le := by decide
  base_aligned := by decide

theorem toy1_wf : toy1.Wf where
  rf_lt _ _ _ _ := Nat.mod_lt _ (by decide)
  empty_key := by decide
  limit_pos := by decide
  limit_le := by decide
  base_aligned := by decide

theorem legal12 : (⟨1, 2⟩ : Domain).Legal := by decide

theorem legal11 : (⟨1, 1⟩ : Domain).Legal := by decide

/-- The two largest domains. -/
theorem legal_largest : (⟨1, 76⟩ : Domain).Legal ∧ (⟨40, 37⟩ : Domain).Legal ∧ ¬ (⟨40, 38⟩ : Domain).Legal := by decide

theorem witness_DifferenceRemainderIsEuclidean :
    0 < 32 ∧ (10 : Nat) < 32 ∧ ((32 : Nat) : Int) ∣ ((30 : Nat) : Int) - ((52 : Nat) : Int) - ((10 : Nat) : Int) := by decide

theorem witness_CeilSqrtIsLeastRoot : 1 ≤ 1 ∧ 1000 ≤ 32 * 32 := by decide

theorem witness_DecodeOfEncodeIsIdentity : Instr.wellFormed (.construct 255 255) = true
    ∧ Instr.wellFormed (.installCipher 2) = true ∧ Instr.wellFormed (.installCipher 255) = true
    ∧ Instr.wellFormed (.illegal 0x00000102) = true := by decide

theorem witness_CommandWordsAreSelectedByMask :
    (0x00FFFF01 : Word) &&& 0xFF0000FF = 0x00000001
    ∧ ((0x00000202 : Word) &&& 0xFFFF00FF = 0x00000002 ∧ 2 ≤ (0x00000202 : Word).toNat / 2 ^ 8 % 256)
    ∧ ((0x0000FF02 : Word) &&& 0xFFFF00FF = 0x00000002 ∧ 2 ≤ (0x0000FF02 : Word).toNat / 2 ^ 8 % 256)
    ∧ ((0x00000102 : Word).toNat % 16 = 2 ∧ (0x00000102 : Word).toNat / 2 ^ 8 % 256 < 2)
    ∧ decodeWord 0x00000001 = .construct 0 0 ∧ decodeWord 0x00000202 = .installCipher 2 := by decide

theorem witness_IllegalWordsAreThoseListed :
    decodeWord 0x00000102 = .illegal 0x00000102
    ∧ (busyWith 0x00000102 plain12).pend = 0x00000102 ∧ (busyWith 0x00000102 plain12).busy = true
    ∧ (busyWith 0x00000102 plain12).order = []
    ∧ { busyWith 0x00000102 plain12 with order := [.engine, .reset] }.order = .engine :: [.reset] := by decide

theorem witness_CmdWriteIssuesWhileIdle : plain12.busy = false ∧ (busyWith 3 plain12).busy = true
    ∧ decodeWord 0x00000013 = .illegal 0x00000013 := by decide

theorem witness_EngineTurnRunsTheDecodedCommand :
    ({ busyWith 3 plain12 with order := [.engine] }.busy = true
      ∧ { busyWith 3 plain12 with order := [.engine] }.order = [.engine])
    ∧ ((busyWith 3 plain12).busy = true ∧ (busyWith 3 plain12).order = [])
    ∧ ({ plain12 with order := [.engine] }.busy = false ∧ { plain12 with order := [.engine] }.order = [.engine])
    ∧ plain12.busy = false ∧ plain12.order = [] := by decide

theorem witness_EngineTurnRunsTheDecodedCommand_next :
    exec (decodeWord (busyWith 5 State.reset).pend) (busyWith 5 State.reset)
      = .next { State.reset with pend := 5, err := 1 } := rfl

/-- Both clauses, at the ends: digit sums 2, 77 and 78, and a digit count of 0. -/
theorem witness_ConstructFollowsItsRule :
    (1 ≤ (1 : Byte).toNat ∧ 1 ≤ (1 : Byte).toNat ∧ 10 ^ ((1 : Byte).toNat + (1 : Byte).toNat) < 2 ^ 256)
    ∧ (1 ≤ (1 : Byte).toNat ∧ 1 ≤ (76 : Byte).toNat ∧ 10 ^ ((1 : Byte).toNat + (76 : Byte).toNat) < 2 ^ 256)
    ∧ 2 ^ 256 ≤ 10 ^ ((40 : Byte).toNat + (38 : Byte).toNat) ∧ (0 : Byte).toNat = 0 := by decide

/-- Key of one byte and of 64; tweak of 0 bytes and of 64. -/
theorem witness_InstallCipherInstallsStagedContext :
    ({ plain12 with keyLen := 1 }.dom = some ⟨1, 2⟩ ∧ 2 ≤ 10 ^ ((1 : Byte).toNat + (2 : Byte).toNat)
      ∧ 1 ≤ ({ plain12 with keyLen := 1 }.keyLen).toNat ∧ ({ plain12 with keyLen := 1 }.keyLen).toNat ≤ 64
      ∧ ({ plain12 with keyLen := 1 }.tweakLen).toNat ≤ 64)
    ∧ (1 ≤ ({ plain12 with keyLen := 64, tweakLen := 64 }.keyLen).toNat
      ∧ ({ plain12 with keyLen := 64, tweakLen := 64 }.keyLen).toNat ≤ 64
      ∧ ({ plain12 with keyLen := 64, tweakLen := 64 }.tweakLen).toNat ≤ 64)
    ∧ [1, 2, 3, 4] = (List.range staged12.keyLen.toNat).map (fun k => staged12.keyStage.toList.getD k 0)
    ∧ [5, 6] = (List.range staged12.tweakLen.toNat).map (fun k => staged12.tweakStage.toList.getD k 0) := by decide

/-- Every clause: no domain; a size below 2 (only in a state no run reaches); each of the four bad keys and tweaks,
at the boundary; and an accepted key. -/
theorem witness_InstallCipherChecksInOrder :
    2 ≤ (2 : Byte).toNat ∧ (1 : Byte).toNat < 2 ∧ State.reset.dom = none
    ∧ ({ State.reset with dom := some ⟨0, 0⟩ }.dom = some ⟨0, 0⟩ ∧ 10 ^ ((0 : Byte).toNat + (0 : Byte).toNat) < 2)
    ∧ (plain12.dom = some ⟨1, 2⟩ ∧ 2 ≤ 10 ^ ((1 : Byte).toNat + (2 : Byte).toNat) ∧ plain12.keyLen.toNat = 0
      ∧ 64 < { plain12 with keyLen := 65 }.keyLen.toNat ∧ 64 < { staged12 with tweakLen := 65 }.tweakLen.toNat
      ∧ toyNoKey.rfKeyOk (staged12.keyStage.toList.take staged12.keyLen.toNat) = false)
    ∧ (staged12.dom = some ⟨1, 2⟩ ∧ 1 ≤ staged12.keyLen.toNat ∧ staged12.keyLen.toNat ≤ 64
      ∧ staged12.tweakLen.toNat ≤ 64
      ∧ toy.rfKeyOk (staged12.keyStage.toList.take staged12.keyLen.toNat) = true) := by decide

theorem witness_EncodeWithoutCipherPairs : plain12.dom = some ⟨1, 2⟩ ∧ (⟨1, 2⟩ : Domain).Legal ∧ plain12.ctx = none
    ∧ plain12.aIn.toNat ≤ 10 ^ (1 : Byte).toNat - 1 ∧ plain12.bIn.toNat ≤ 10 ^ (2 : Byte).toNat - 1
    ∧ { plain12 with aIn := 9 }.aIn.toNat ≤ 10 ^ (1 : Byte).toNat - 1
    ∧ { plain12 with bIn := 99 }.bIn.toNat ≤ 10 ^ (2 : Byte).toNat - 1 := by decide

/-- Every clause: no domain; each operand out of range; the plain pair; a walk that ends (W2) and one that the guard stops
(W8). -/
theorem witness_EncodeFollowsItsRule : toy.Wf ∧ toy1.Wf ∧ State.reset.dom = none ∧ (⟨1, 2⟩ : Domain).Legal
    ∧ (plain12.dom = some ⟨1, 2⟩ ∧ plain12.ctx = none ∧ 10 ^ (1 : Byte).toNat - 1 < { plain12 with aIn := 10 }.aIn.toNat
      ∧ 10 ^ (2 : Byte).toNat - 1 < { plain12 with bIn := 100 }.bIn.toNat)
    ∧ (cipher12.dom = some ⟨1, 2⟩ ∧ cipher12.ctx = some ctx2)
    ∧ ({ cipher12 with aIn := 1, bIn := 65 }.aIn.toNat ≤ 10 ^ (1 : Byte).toNat - 1
      ∧ { cipher12 with aIn := 1, bIn := 65 }.bIn.toNat ≤ 10 ^ (2 : Byte).toNat - 1
      ∧ fwd toy ctx2 (10 ^ ((1 : Byte).toNat + (2 : Byte).toNat)) (1 * 10 ^ (2 : Byte).toNat + 65) = some (158, 2)
      ∧ fwd toy1 ctx2 (10 ^ ((1 : Byte).toNat + (2 : Byte).toNat)) (1 * 10 ^ (2 : Byte).toNat + 65) = none) :=
  ⟨toy_wf, toy1_wf, rfl, by decide, by decide, by decide, by decide⟩

theorem witness_DecodeWithoutCipherUnpairs : plain12.dom = some ⟨1, 2⟩ ∧ (⟨1, 2⟩ : Domain).Legal ∧ plain12.ctx = none
    ∧ plain12.cIn.toNat < 10 ^ ((1 : Byte).toNat + (2 : Byte).toNat)
    ∧ { plain12 with cIn := 999 }.cIn.toNat < 10 ^ ((1 : Byte).toNat + (2 : Byte).toNat) := by decide

/-- Every clause: no domain; an operand out of range; the plain value; a walk that ends (W3) and one that the guard stops
(W9). -/
theorem witness_DecodeFollowsItsRule : toy.Wf ∧ toy1.Wf ∧ State.reset.dom = none ∧ (⟨1, 2⟩ : Domain).Legal
    ∧ (plain12.dom = some ⟨1, 2⟩ ∧ plain12.ctx = none
      ∧ 10 ^ ((1 : Byte).toNat + (2 : Byte).toNat) ≤ { plain12 with cIn := 1000 }.cIn.toNat
      ∧ { plain12 with cIn := 999 }.cIn.toNat < 10 ^ ((1 : Byte).toNat + (2 : Byte).toNat))
    ∧ (cipher12.dom = some ⟨1, 2⟩ ∧ cipher12.ctx = some ctx2)
    ∧ ({ cipher12 with cIn := 158 }.cIn.toNat < 10 ^ ((1 : Byte).toNat + (2 : Byte).toNat)
      ∧ inv toy ctx2 (10 ^ ((1 : Byte).toNat + (2 : Byte).toNat)) 158 = some (165, 2)
      ∧ inv toy1 ctx2 (10 ^ ((1 : Byte).toNat + (2 : Byte).toNat)) 158 = none) :=
  ⟨toy_wf, toy1_wf, rfl, by decide, by decide, by decide, by decide⟩

theorem witness_EvenDigitSumNeverWalks : cipher11.dom = some ⟨1, 1⟩ ∧ (⟨1, 1⟩ : Domain).Legal
    ∧ ((1 : Byte).toNat + (1 : Byte).toNat) % 2 = 0 ∧ cipher11.ctx = some ⟨[1, 2, 3, 4], [5, 6], 2, 10⟩
    ∧ 10 = ceilSqrt (10 ^ ((1 : Byte).toNat + (1 : Byte).toNat))
    ∧ cipher11.aIn.toNat ≤ 10 ^ (1 : Byte).toNat - 1 ∧ cipher11.bIn.toNat ≤ 10 ^ (1 : Byte).toNat - 1
    ∧ cipher11.cIn.toNat < 10 ^ ((1 : Byte).toNat + (1 : Byte).toNat) := by decide

theorem witness_MaximumsFollowsItsRule : cipher12.dom = some ⟨1, 2⟩ ∧ (⟨1, 2⟩ : Domain).Legal
    ∧ State.reset.dom = none := by decide

theorem witness_IllegalFollowsItsRule : (0x00000102 : Word) &&& 0xFF0000FF ≠ 0x00000001
    ∧ ¬ ((0x00000102 : Word) &&& 0xFFFF00FF = 0x00000002 ∧ 2 ≤ (0x00000102 : Word).toNat / 2 ^ 8 % 256)
    ∧ (0x00000102 : Word) ≠ 0x00000003 ∧ (0x00000102 : Word) ≠ 0x00000004 ∧ (0x00000102 : Word) ≠ 0x00000005 := by decide

theorem witness_EncodeAtTheDomainBoundary : plain12.dom = some ⟨1, 2⟩ ∧ (⟨1, 2⟩ : Domain).Legal ∧ plain12.ctx = none
    ∧ { plain12 with aIn := 9 }.aIn.toNat = 10 ^ (1 : Byte).toNat - 1
    ∧ { plain12 with bIn := 99 }.bIn.toNat = 10 ^ (2 : Byte).toNat - 1
    ∧ { plain12 with aIn := 10 }.aIn.toNat = 10 ^ (1 : Byte).toNat
    ∧ { plain12 with bIn := 100 }.bIn.toNat = 10 ^ (2 : Byte).toNat ∧ { plain12 with aIn := 0 }.aIn.toNat = 0 := by decide

/-- Codes 0, 1, 2, 3 and 5 (4 depends on the block's own open guard; its witness is at `EncodeFollowsItsRule`). -/
theorem witness_StatusCodesHaveExactlyTheirCauses :
    exec .maximums State.reset = .next { State.reset with err := 1 }
    ∧ exec (.installCipher 2) plain12 = .next { plain12 with err := 2 }
    ∧ exec .encode { plain12 with aIn := 10 } = .next { plain12 with aIn := 10, err := 3 }
    ∧ exec .decode { plain12 with cIn := 1000 } = .next { plain12 with cIn := 1000, err := 3 }
    ∧ exec (.illegal 6) plain12 = .next { plain12 with err := 5 }
    ∧ exec .encode plain12 = .next { plain12 with cOut := 307 } := ⟨rfl, rfl, rfl, rfl, rfl, rfl⟩

theorem witness_ErrorChangesOnlyErrAndBusy :
    exec .encode { cipher12 with bIn := 100 } = .next { cipher12 with bIn := 100, err := 3 }
    ∧ { cipher12 with bIn := 100, err := 3 }.err ≠ 0 := ⟨rfl, by decide⟩

/-- One offset a command: the lowest and the highest that it leaves, STATUS apart. -/
theorem witness_CommandsChangeOnlyTheirRegisters :
    exec .encode plain12 = .next { plain12 with cOut := 307 }
    ∧ exec .decode plain12 = .next { plain12 with aOut := 3, bOut := 7 }
    ∧ exec .maximums plain12 = .next { plain12 with aOut := 9, bOut := 99 }
    ∧ exec (.construct 1 1) plain12 = .next { plain12 with dom := some ⟨1, 1⟩ }
    ∧ exec (.installCipher 2) plain12 = .next { plain12 with err := 2 }
    ∧ exec (.illegal 6) plain12 = .next { plain12 with err := 5 }
    ∧ (0x1BC : Offset).toNat ≠ 0x004 ∧ (0x1BC : Offset).toNat ≠ 0x00C
    ∧ ¬ (0x1C0 ≤ (0x1BC : Offset).toNat ∧ (0x1BC : Offset).toNat < 0x1E0)
    ∧ ¬ (0x180 ≤ (0x1C0 : Offset).toNat ∧ (0x1C0 : Offset).toNat < 0x1C0) ∧ (0x00C : Offset).toNat ≠ 0x008 :=
  ⟨rfl, rfl, rfl, rfl, rfl, rfl, by decide, by decide, by decide, by decide, by decide⟩

theorem witness_ConfigShowsItsFields : cipher12.dom = some ⟨1, 2⟩ ∧ cipher12.ctx = some ctx2
    ∧ State.reset.dom = none ∧ plain12.ctx = none := by decide

/-- Lengths that INSTALL_CIPHER rejects, at the ends of their ranges, in a legal domain. -/
theorem witness_LengthRegistersKeepSevenBits : plain12.busy = false ∧ (0x80 : Word).toNat % 128 = 0
    ∧ 64 < (65 : Word).toNat % 128 ∧ 64 < (127 : Word).toNat % 128
    ∧ (portWrite 0x010 65 plain12).dom = some ⟨1, 2⟩ ∧ (⟨1, 2⟩ : Domain).Legal := by decide

/-- Of the statements on writes of an idle block (KeyDataWritesItsBytes, TweakDataWritesItsBytes,
 OperandWordWritesItsBits), with the first and the last byte of a buffer inside and outside
the written word. -/
theorem witness_idle_writes : plain12.busy = false ∧ (0 : Fin 64).val / 4 = (0 : Fin 16).val
    ∧ (63 : Fin 64).val / 4 = (15 : Fin 16).val ∧ (4 : Fin 64).val / 4 ≠ (0 : Fin 16).val := by decide

/-- STATUS with the code 5, the last defined one, and with 6; the first and the last offset of every range. -/
theorem witness_ReadsHaveNoSideEffect :
    { plain12 with err := 5, order := [rd 0x004] }.order = [.access ⟨.read, 0x004, 4, 1⟩]
    ∧ { plain12 with err := 5 }.err.toNat ≤ 5 ∧ 5 < { plain12 with err := 6 }.err.toNat
    ∧ (0x004 : Offset).toNat % 4 = 0 ∧ (0x000 : Offset).toNat = 0
    ∧ 0x018 ≤ (0x018 : Offset).toNat ∧ (0x07C : Offset).toNat < 0x080
    ∧ 0x0C0 ≤ (0x0C0 : Offset).toNat ∧ (0x0FC : Offset).toNat < 0x100
    ∧ 0x160 ≤ (0x160 : Offset).toNat ∧ (0x17C : Offset).toNat < 0x180 ∧ 0x1E0 ≤ (0x1E0 : Offset).toNat
    ∧ 0x1E0 ≤ (0xFFC : Offset).toNat
    ∧ (0 : Fin 64).val / 4 = (0 : Fin 16).val ∧ (63 : Fin 64).val / 4 = (15 : Fin 16).val := by decide

theorem witness_WritesIgnoredWhereTheRuleSays :
    { plain12 with order := [wr 0x1E0 7] }.order = [.access ⟨.write 7, 0x1E0, 4, 1⟩]
    ∧ (0x1E0 : Offset).toNat % 4 = 0 ∧ (busyWith 3 plain12).busy = true ∧ plain12.busy = false
    ∧ (0x004 : Offset).toNat = 0x004 ∧ (0x008 : Offset).toNat = 0x008 ∧ (0x00C : Offset).toNat = 0x00C
    ∧ 0x018 ≤ (0x018 : Offset).toNat ∧ (0x03C : Offset).toNat < 0x040
    ∧ 0x0C0 ≤ (0x0C0 : Offset).toNat ∧ (0x0FC : Offset).toNat < 0x100 ∧ 0x160 ≤ (0x160 : Offset).toNat := by decide

/-- A byte access, a burst, a misaligned access, and one that is admitted. -/
theorem witness_OtherAccessesAreRefused :
    { plain12 with order := [.access ⟨.read, 0x004, 1, 1⟩] }.order = [.access ⟨.read, 0x004, 1, 1⟩]
    ∧ (⟨.read, 0x004, 1, 1⟩ : Access).bytes ≠ 4 ∧ (⟨.read, 0x004, 4, 2⟩ : Access).beats ≠ 1
    ∧ (⟨.write 0, 0x006, 4, 1⟩ : Access).off.toNat % 4 ≠ 0
    ∧ { plain12 with order := [.accessInReset ⟨.read, 0x004, 4, 1⟩] }.order
      = [.accessInReset ⟨.read, 0x004, 4, 1⟩] := by decide

theorem witness_RepeatedWritesAreIdempotent : (0x004 : Offset).toNat ≠ 0 ∧ (0xFFC : Offset).toNat ≠ 0 := by decide

/-- Reset with a command pending. -/
theorem witness_ResetRestoresEveryComponent :
    { busyWith 3 cipher12 with order := [.reset, rd 0x004] }.order = .reset :: [rd 0x004] := by decide

theorem witness_EveryStepKeepsTheInvariant : State.reset.Inv
    ∧ step { State.reset with order := [wr 0x000 0x00020101] }
      = .next { State.reset with pend := 0x00020101, busy := true } := by
  refine ⟨⟨?_, ?_, Nat.zero_le _, Nat.zero_le _⟩, rfl⟩ <;> intro _ h <;> cases h

/-- A state with a domain, a command issued and turns of three kinds listed. -/
theorem witness_GoodStatesNeverFault : { busyWith 3 plain12 with order := [rd 0x004, .engine, .reset] }.Inv
    ∧ ∀ e ∈ { busyWith 3 plain12 with order := [rd 0x004, .engine, .reset] }.order, e.allowed = true := by
  refine ⟨⟨?_, ?_, Nat.zero_le _, Nat.zero_le _⟩, by decide⟩
  · intro d h; cases h; exact legal12
  · intro c h; cases h

/-- Issue, completion by a listed turn and with no turn listed, reset, and a step that stays busy. -/
theorem witness_BusyChangesOnlyByIssueCompletionReset :
    (step { plain12 with order := [wr 0x000 5] } = .next (busyWith 5 plain12)
      ∧ plain12.busy = false ∧ (busyWith 5 plain12).busy = true)
    ∧ (step { busyWith 6 plain12 with order := [.engine] } = .next { plain12 with pend := 6, err := 5 }
      ∧ step (busyWith 6 plain12) = .next { plain12 with pend := 6, err := 5 }
      ∧ step { busyWith 6 plain12 with order := [.reset] } = .next State.reset)
    ∧ step { busyWith 6 plain12 with order := [wr 0x100 1] } = .next (busyWith 6 plain12) :=
  ⟨⟨rfl, rfl, rfl⟩, ⟨rfl, rfl, rfl⟩, rfl⟩

theorem witness_NothingMovesWhileBusy : (busyWith 3 plain12).busy = true
    ∧ step { busyWith 3 plain12 with order := [wr 0x100 5] } = .next (busyWith 3 plain12) := ⟨rfl, rfl⟩

theorem witness_OnlySetupWritesDomainAndContext :
    step (busyWith 0x00020101 cipher12) = .next { plain12 with pend := 0x00020101 }
    ∧ plain12.ctx ≠ cipher12.ctx
    ∧ step (busyWith 0x00010101 plain12) = .next { plain12 with pend := 0x00010101, dom := some ⟨1, 1⟩ }
    ∧ (some ⟨1, 1⟩ : Option Domain) ≠ plain12.dom := ⟨rfl, by decide, rfl, by decide⟩

theorem witness_IssuedCommandCompletesAfterAnyAccesses :
    { busyWith 3 plain12 with order := [wr 0x100 5, rd 0x004] }.busy = true
    ∧ { busyWith 3 plain12 with order := [wr 0x100 5, rd 0x004] }.err.toNat ≤ 5
    ∧ (∃ a, wr 0x100 5 = .access a ∧ a.admitted = true) ∧ ∃ a, rd 0x004 = .access a ∧ a.admitted = true :=
  ⟨by decide, by decide, ⟨_, rfl, by decide⟩, ⟨_, rfl, by decide⟩⟩

theorem witness_WrwAndRdwCarryWholeValues : plain12.busy = false := rfl

/-- A string of no bytes and one of 64. -/
theorem witness_SetkeyAndSettweakStageTheirBytes : plain12.busy = false ∧ ([] : List Byte).length ≤ 64
    ∧ (List.replicate 64 (0xFF : Byte)).length ≤ 64 := by decide

theorem witness_PairIsABijection : 9 < 10 ^ (1 : Byte).toNat ∧ 99 < 10 ^ (2 : Byte).toNat
    ∧ 999 < 10 ^ ((1 : Byte).toNat + (2 : Byte).toNat) := by decide

/-- Digit 1 of `pair(3, 7) = 307` is one of `b`'s, digit 2 is one of `a`'s. -/
theorem witness_PairConcatenatesDecimalDigits : 7 < 10 ^ (2 : Byte).toNat ∧ 1 < (2 : Byte).toNat
    ∧ (2 : Byte).toNat ≤ 2 ∧ pair ⟨1, 2⟩ 3 7 = 307 := by decide

theorem witness_SplitAndCombineAreInverse : 0 < 32 ∧ 1023 < 32 * 32 ∧ 31 < 32 := by decide

theorem witness_InverseRoundUndoesForwardRound : 9 < ctx2.r ∧ 19 < ctx2.r ∧ 31 < ctx2.r := by decide

theorem witness_TransformsRunTheirRounds : 0 < ctx2.r * ctx2.r ∧ 1023 < ctx2.r * ctx2.r := by decide

theorem witness_TransformIsABijectionOfTheSuperset : 1023 < ctx2.r * ctx2.r := by decide

theorem witness_InverseWalkUndoesForwardWalk : 1000 ≤ ctx2.r * ctx2.r ∧ 165 < 1000 ∧ 158 < 1000
    ∧ fwd toy ctx2 1000 165 = some (158, 2) := by decide

/-- The guard at the bound, `1024 - 1000 + 1 = 25`; digit sums 2, 3 and 18. -/
theorem witness_LongGuardNeverTrips : (1000 ≤ ctx2.r * ctx2.r ∧ 999 < 1000
      ∧ ctx2.r * ctx2.r - 1000 + 1 ≤ { toy with walkLimit := 25 }.walkLimit)
    ∧ (toy.walkLimit = 2 ^ 32 - 1 ∧ ctx2.r = ceilSqrt (10 ^ 3) ∧ 10 = ceilSqrt (10 ^ 2)
      ∧ 10 ^ 9 = ceilSqrt (10 ^ 18)) := by decide

/-- Both clauses: an ENCODE and a DECODE that complete with OK through the cipher. -/
theorem witness_DecodeUndoesEncode : toy.Wf ∧ cipher12.dom = some ⟨1, 2⟩ ∧ (⟨1, 2⟩ : Domain).Legal
    ∧ (cipher12.ctx = some ctx2 ∧ ctx2.r = ceilSqrt (10 ^ ((1 : Byte).toNat + (2 : Byte).toNat)))
    ∧ encodeWith toy cipher12 = .next { cipher12 with cOut := 608, cw := 1 }
    ∧ decodeWith toy { cipher12 with cIn := 158 }
      = .next { cipher12 with cIn := 158, aOut := 1, bOut := 65, cw := 2 } :=
  ⟨toy_wf, rfl, by decide, by decide, rfl, rfl⟩

theorem witness_LatestInstallationWins :
    installCipherWith toy 2 staged12 = .next { staged12 with ctx := some ctx2 } := rfl

end Sys2Proof.Tests
end

section
/-! PROOFS. The block's parameters meet the constraints of spec/00_scope.md R7, whatever the OPEN constants are. -/

namespace Sys2Proof.Machine

/-- The constraints hold by the way `Config.params` is put together (log entry 1): the round function is cut to its
width, the empty key is ruled out before the open predicate is asked, the guard is one more than a bounded number, and
the window's address is a whole number of pages. -/
theorem params_wf : Config.params.Wf where
  rf_lt _ _ _ _ := Nat.mod_lt _ (Nat.two_pow_pos Config.roundWidth)
  empty_key := rfl
  limit_pos := Nat.succ_pos Config.walkLimitFree.val
  limit_le := params_walkLimit_le
  base_aligned := Nat.mul_mod_right 4096 Config.ffxPage

/-- Settles O1: the open parameters by `params_wf`; the width is the constant 256. -/
theorem parametersMeetConstraints : Obligations.ParametersMeetConstraints :=
  ⟨params_wf, by decide, by decide⟩

end Sys2Proof.Machine
end

section
/-! PROOFS. The registers of spec/10_state.md as the port shows them: STATUS and CONFIG (R38, R39), the length registers
(R41, R42) and the words of the wide registers (R47). -/

namespace Sys2Proof.Machine

/-! ### Registers at the offsets of R36 -/

theorem portRead_status (s : State) : portRead 0x004 s = s.statusWord := portRead_of_offset s .status

theorem portRead_config (s : State) : portRead 0x008 s = s.configWord := portRead_of_offset s .config

theorem portRead_keyLen (s : State) : portRead 0x010 s = lengthWord s.keyLen := portRead_of_offset s .keyLen

theorem portRead_tweakLen (s : State) : portRead 0x014 s = lengthWord s.tweakLen := portRead_of_offset s .tweakLen

theorem portRead_wide (s : State) (x : WideReg) {j : Nat} (hj : j < 8) :
    portRead (BitVec.ofNat 12 (x.base + 4 * j)) s = wordOf (s.getWide x) j :=
  portRead_of_offset s (.wide x ⟨j, hj⟩)

/-- Where a register ignores its writes, so does the port at its offset, busy or idle. -/
theorem portWrite_eq_self {s : State} {r : Reg} {v : Word} (h : writeReg r v s = s) :
    portWrite (BitVec.ofNat 12 r.offset) v s = s := by
  cases hb : s.busy with
  | true => exact portWrite_busy hb _ v
  | false => rw [portWrite_idle hb, h]

/-! ### STATUS (R38) -/

theorem getLsbD_eq_of_div_mod {n i : Nat} {x : BitVec n} {b : Bool} (h : x.toNat / 2 ^ i % 2 = b.toNat) :
    x.getLsbD i = b := by
  rw [BitVec.getLsbD, Nat.testBit_eq_decide_div_mod_eq, h]
  simp

theorem statusWord_flags (s : State) :
    s.statusWord.getLsbD 0 = s.busy ∧ s.statusWord.getLsbD 1 = s.dom.isSome
      ∧ s.statusWord.getLsbD 2 = s.ctx.isSome := by
  have hb := Bool.toNat_le s.busy
  have hd := Bool.toNat_le s.dom.isSome
  have hc := Bool.toNat_le s.ctx.isSome
  refine ⟨getLsbD_eq_of_div_mod ?_, getLsbD_eq_of_div_mod ?_, getLsbD_eq_of_div_mod ?_⟩ <;>
    rw [statusWord_toNat] <;> omega

theorem statusWord_err_and_reserved (s : State) :
    s.statusWord.toNat / 2 ^ 3 % 32 = 0 ∧ s.statusWord.toNat / 2 ^ 8 % 16 = s.err.toNat
      ∧ s.statusWord.toNat / 2 ^ 12 = 0 := by
  have he := s.err.isLt
  have hb := Bool.toNat_le s.busy
  have hd := Bool.toNat_le s.dom.isSome
  have hc := Bool.toNat_le s.ctx.isSome
  rw [statusWord_toNat]
  omega

/-- What stands above BUSY depends on the error code, the domain and the context only. -/
theorem statusWord_div_two (s : State) :
    s.statusWord.toNat / 2 = s.err.toNat * 128 + (s.ctx.isSome.toNat * 2 + s.dom.isSome.toNat) := by
  have hb := Bool.toNat_le s.busy
  rw [statusWord_toNat]
  omega

theorem statusWord_portWrite_div_two (off : Offset) (v : Word) (s : State) :
    (portWrite off v s).statusWord.toNat / 2 = s.statusWord.toNat / 2 := by
  obtain ⟨hdom, hctx, -, herr, -, -⟩ := portWrite_keeps off v s
  rw [statusWord_div_two, statusWord_div_two, hdom, hctx, herr]

/-- Settles O28: a write leaves every component that STATUS shows above BUSY (`statusWord_portWrite_div_two`). -/
theorem statusShowsItsFields : Obligations.StatusShowsItsFields := by
  unfold Obligations.StatusShowsItsFields
  simp only [portRead_status]
  refine ⟨fun s => ?_, by decide⟩
  obtain ⟨hbusy, hdom, hctx⟩ := statusWord_flags s
  obtain ⟨hlow, herr, hhigh⟩ := statusWord_err_and_reserved s
  exact ⟨hbusy, hdom, hctx, hlow, herr, hhigh, fun v => portWrite_eq_self (r := .status) rfl,
    fun off v => statusWord_portWrite_div_two off v s⟩

/-! ### CONFIG (R39) -/

theorem configWord_fields (s : State) :
    s.configWord.toNat % 256 = s.aDigitsField.toNat ∧ s.configWord.toNat / 2 ^ 8 % 256 = s.bDigitsField.toNat
      ∧ s.configWord.toNat / 2 ^ 16 % 256 = s.roundsField.toNat ∧ s.configWord.toNat / 2 ^ 24 = 0 := by
  have ha := s.aDigitsField.isLt
  have hb := s.bDigitsField.isLt
  have hr := s.roundsField.isLt
  rw [configWord_toNat]
  omega

theorem digitFields_some {s : State} {d : Domain} (h : s.dom = some d) :
    s.aDigitsField = d.aDigits ∧ s.bDigitsField = d.bDigits := by
  simp [State.aDigitsField, State.bDigitsField, h]

theorem digitFields_none {s : State} (h : s.dom = none) : s.aDigitsField.toNat = 0 ∧ s.bDigitsField.toNat = 0 := by
  simp [State.aDigitsField, State.bDigitsField, h]

theorem roundsField_some {s : State} {c : CipherContext} (h : s.ctx = some c) : s.roundsField = c.rounds := by
  simp [State.roundsField, h]

theorem roundsField_none {s : State} (h : s.ctx = none) : s.roundsField.toNat = 0 := by
  simp [State.roundsField, h]

/-- Settles O29: each byte of CONFIG is its field (`configWord_fields`), and a field with nothing to show is 0. -/
theorem configShowsItsFields : Obligations.ConfigShowsItsFields := by
  unfold Obligations.ConfigShowsItsFields
  simp only [portRead_config]
  refine ⟨fun s => ?_, by decide⟩
  obtain ⟨ha, hb, hr, hres⟩ := configWord_fields s
  refine ⟨fun d hd => ?_, fun hd => ?_, fun c hc => ?_, fun hc => ?_, hres,
    fun v => portWrite_eq_self (r := .config) rfl⟩
  · obtain ⟨had, hbd⟩ := digitFields_some hd
    exact ⟨had ▸ ha, hbd ▸ hb⟩
  · obtain ⟨had, hbd⟩ := digitFields_none hd
    omega
  · rw [hr, roundsField_some hc]
  · rw [hr, roundsField_none hc]

/-! ### The wide registers (R47) -/

theorem getWide_sum_portRead (s : State) (x : WideReg) :
    (s.getWide x).toNat
      = ∑ j ∈ Finset.range 8, (portRead (BitVec.ofNat 12 (x.base + 4 * j)) s).toNat * 2 ^ (32 * j) := by
  rw [wide_sum]
  refine Finset.sum_congr rfl fun j hj => ?_
  rw [portRead_wide s x (Finset.mem_range.mp hj)]

/-- Settles O34, by `getWide_sum_portRead` at each of the six wide registers. -/
theorem wideValueIsTheSumOfItsWords : Obligations.WideValueIsTheSumOfItsWords := fun s =>
  ⟨getWide_sum_portRead s .aIn, getWide_sum_portRead s .bIn, getWide_sum_portRead s .cIn,
    getWide_sum_portRead s .aOut, getWide_sum_portRead s .bOut, getWide_sum_portRead s .cOut⟩

/-! ### KEY_LEN and TWEAK_LEN (R41, R42) -/

theorem lengthField_toNat (v : Word) : (lengthField v).toNat = v.toNat % 128 := by
  simp [lengthField]

theorem lengthWord_toNat (len : BitVec 7) : (lengthWord len).toNat = len.toNat :=
  BitVec.toNat_setWidth_of_le (by decide)

theorem portWrite_keyLen {s : State} (hb : s.busy = false) (v : Word) :
    portWrite 0x010 v s = { s with keyLen := lengthField v } := portWrite_idle hb .keyLen v

theorem portWrite_tweakLen {s : State} (hb : s.busy = false) (v : Word) :
    portWrite 0x014 v s = { s with tweakLen := lengthField v } := portWrite_idle hb .tweakLen v

/-- A legal domain passes INSTALL_CIPHER's check of the domain's size (R134). -/
theorem Domain.Legal.two_le_size {d : Domain} (h : d.Legal) : 2 ≤ d.size := by
  obtain ⟨ha, -, -⟩ := h
  have h10 : 10 ^ 1 ≤ d.size := Nat.pow_le_pow_right (by decide) (by omega)
  omega

/-- INSTALL_CIPHER in a legal domain rejects a staged key or tweak of a length out of range (R134). -/
theorem installCipher_invalidKey {s : State} {d : Domain} (rounds : Byte) (hd : s.dom = some d) (hl : d.Legal)
    (hlen : s.keyLen.toNat = 0 ∨ Config.keyMax < s.keyLen.toNat ∨ Config.tweakMax < s.tweakLen.toNat) :
    exec (.installCipher rounds) s = .next (s.finish .invalidKey) := by
  change installCipherWith Config.params rounds s = _
  rw [installCipherWith, requireDomain_some hd, if_neg (Nat.not_lt.mpr hl.two_le_size)]
  by_cases hkey : s.keyLen.toNat = 0 ∨ Config.keyMax < s.keyLen.toNat
  · rw [if_pos hkey, raiseError_eq]
  · have htweak : Config.tweakMax < s.tweakLen.toNat := by tauto
    rw [if_neg hkey, if_pos htweak, raiseError_eq]

/-- Settles O30: the port stores `lengthField` of the word, and `installCipher_invalidKey` rejects the stored length. -/
theorem lengthRegistersKeepSevenBits : Obligations.LengthRegistersKeepSevenBits := by
  unfold Obligations.LengthRegistersKeepSevenBits
  simp only [portRead_keyLen, portRead_tweakLen]
  refine ⟨fun s v hb => ?_, by decide, by decide⟩
  have hv := lengthField_toNat v
  refine ⟨⟨_, portWrite_keyLen hb v, rfl, hv, (lengthWord_toNat _).trans hv, fun hbad rounds d hd hl => ?_⟩,
    ⟨_, portWrite_tweakLen hb v, rfl, hv, (lengthWord_toNat _).trans hv, fun hbad rounds d hd hl => ?_⟩⟩
  · rw [← hv] at hbad
    exact installCipher_invalidKey rounds hd hl (hbad.imp_right .inl)
  · rw [← hv] at hbad
    exact installCipher_invalidKey rounds hd hl (.inr (.inr hbad))

end Sys2Proof.Machine
end

section
/-! PROOFS. Which command a word is, by mask and match, and the word of the command it decodes to (spec/30_encoding.md
R102 to R104, R107). -/

namespace Sys2Proof

/-! ### From a word's bits to its command -/

theorem decodeWord_of_constructMask {w : Word} (h : w &&& 0xFF0000FF = 0x00000001) :
    decodeWord w = .construct (imm1Field w) (imm2Field w) := by
  rw [constructMask_iff] at h
  have hop : (opField w).toNat = 1 := by rw [opField_toNat]; omega
  have hres0 : (res0Field w).toNat = 0 := by rw [res0Field_toNat]; omega
  have hres1 : (res1Field w).toNat = 0 := by rw [res1Field_toNat]; omega
  simp [decodeWord_toNat, hop, hres0, hres1]

theorem decodeWord_of_installMask {w : Word} (h : w &&& 0xFFFF00FF = 0x00000002)
    (hrounds : 2 ≤ (imm1Field w).toNat) : decodeWord w = .installCipher (imm1Field w) := by
  rw [installMask_iff] at h
  have hop : (opField w).toNat = 2 := by rw [opField_toNat]; omega
  have hres0 : (res0Field w).toNat = 0 := by rw [res0Field_toNat]; omega
  have hres1 : (res1Field w).toNat = 0 := by rw [res1Field_toNat]; omega
  have himm2 : (imm2Field w).toNat = 0 := by rw [imm2Field_toNat]; omega
  simp [decodeWord_toNat, hop, hres0, hres1, himm2, hrounds]

/-- OP 2 with fewer than two rounds is illegal, whatever the other fields hold. -/
theorem decodeWord_illegal_of_few_rounds {w : Word} (hop : (opField w).toNat = 2)
    (hrounds : (imm1Field w).toNat < 2) : decodeWord w = .illegal w := by
  simp [decodeWord_toNat, hop, Nat.not_le.mpr hrounds]

/-! ### From a command back to the word -/

/-- Encoding what a word decodes to gives the word back: the fields that the decoder tests to be constant are those
that the encoder writes as constants. -/
theorem encode_decodeWord (w : Word) : encode (decodeWord w) = w := by
  have hw := word_toNat_fields w
  apply BitVec.eq_of_toNat_eq
  rw [decodeWord_toNat]
  split_ifs with hres hconstruct hinstall hencode hdecode hmaximums
  · rfl
  · rw [encode_construct_toNat]; omega
  · rw [encode_installCipher_toNat]; omega
  · change 3 = _; omega
  · change 4 = _; omega
  · change 5 = _; omega
  · rfl

theorem eq_encode_of_decodeWord {w : Word} {i : Instr} (h : decodeWord w = i) : w = encode i :=
  h ▸ (encode_decodeWord w).symm

theorem two_le_rounds_of_decodeWord {w : Word} {rounds : Byte} (h : decodeWord w = .installCipher rounds) :
    2 ≤ rounds.toNat := by
  by_contra hlt
  have hw := eq_encode_of_decodeWord h
  have hnum := encode_installCipher_toNat rounds
  rw [← hw] at hnum
  have hillegal : decodeWord w = .illegal w :=
    decodeWord_illegal_of_few_rounds (by rw [opField_toNat]; omega) (by rw [imm1Field_toNat]; omega)
  cases h.symm.trans hillegal

/-- Settles O6: the selections by mask from the decoder's tests, the converses because a word is the encoding of what it
decodes to (`encode_decodeWord`), whose fixed bits are its row's (`Laws.EncodingRow`). -/
theorem commandWordsAreSelectedByMask : Obligations.CommandWordsAreSelectedByMask := by
  unfold Obligations.CommandWordsAreSelectedByMask
  intro w
  rw [← imm1Field_toNat, ← imm2Field_toNat, ← opField_toNat]
  refine ⟨fun h => ⟨_, _, decodeWord_of_constructMask h, rfl, rfl⟩, fun h hrounds => ?_,
    decodeWord_illegal_of_few_rounds, ⟨eq_encode_of_decodeWord, ?_⟩, ⟨eq_encode_of_decodeWord, ?_⟩,
    ⟨eq_encode_of_decodeWord, ?_⟩, fun ad bd h => ?_, fun rounds h => ⟨?_, two_le_rounds_of_decodeWord h⟩⟩
  · have hdec := decodeWord_of_installMask h hrounds
    exact ⟨_, hdec, rfl, eq_encode_of_decodeWord hdec⟩
  · rintro rfl; decide
  · rintro rfl; decide
  · rintro rfl; decide
  · rw [eq_encode_of_decodeWord h]; exact (Laws.EncodingRow.construct ad bd).1
  · rw [eq_encode_of_decodeWord h]; exact (Laws.EncodingRow.installCipher rounds).1

end Sys2Proof
end

section
/-! PROOFS. The words of the commands decode to their commands, and a word that no command matches to ILLEGAL
(spec/30_encoding.md R102 to R104; spec/40_domain_encoder.md R133, R134, R138). -/

namespace Sys2Proof

theorem imm1Field_encode_construct (ad bd : Byte) : imm1Field (encode (.construct ad bd)) = ad := by
  have had := ad.isLt
  apply BitVec.eq_of_toNat_eq
  rw [imm1Field_toNat, encode_construct_toNat]
  omega

theorem imm2Field_encode_construct (ad bd : Byte) : imm2Field (encode (.construct ad bd)) = bd := by
  have had := ad.isLt
  have hbd := bd.isLt
  apply BitVec.eq_of_toNat_eq
  rw [imm2Field_toNat, encode_construct_toNat]
  omega

theorem imm1Field_encode_installCipher (rounds : Byte) : imm1Field (encode (.installCipher rounds)) = rounds := by
  have hrounds := rounds.isLt
  apply BitVec.eq_of_toNat_eq
  rw [imm1Field_toNat, encode_installCipher_toNat]
  omega

theorem decodeWord_encode_construct (ad bd : Byte) : decodeWord (encode (.construct ad bd)) = .construct ad bd := by
  rw [decodeWord_of_constructMask (Laws.EncodingRow.construct ad bd).1, imm1Field_encode_construct,
    imm2Field_encode_construct]

theorem decodeWord_encode_installCipher {rounds : Byte} (h : 2 ≤ rounds.toNat) :
    decodeWord (encode (.installCipher rounds)) = .installCipher rounds := by
  have himm := imm1Field_encode_installCipher rounds
  rw [decodeWord_of_installMask (Laws.EncodingRow.installCipher rounds).1 (by rwa [himm]), himm]

theorem decodeWord_encode_installCipher_few_rounds {rounds : Byte} (h : rounds.toNat < 2) :
    decodeWord (encode (.installCipher rounds)) = .illegal (encode (.installCipher rounds)) := by
  refine decodeWord_illegal_of_few_rounds ?_ (by rwa [imm1Field_encode_installCipher])
  rw [opField_toNat, encode_installCipher_toNat]
  omega

/-- A word is the encoding of what it decodes to (`encode_decodeWord`), so a legal command would put its row's fixed
bits into the word. -/
theorem decodeWord_illegal_of_unmatched {w : Word} (hconstruct : w &&& 0xFF0000FF ≠ 0x00000001)
    (hinstall : ¬ (w &&& 0xFFFF00FF = 0x00000002 ∧ 2 ≤ w.toNat / 2 ^ 8 % 256))
    (hencode : w ≠ 0x00000003) (hdecode : w ≠ 0x00000004) (hmaximums : w ≠ 0x00000005) :
    decodeWord w = .illegal w := by
  cases hdec : decodeWord w with
  | construct ad bd =>
    have hmask := (Laws.EncodingRow.construct ad bd).1
    rw [← eq_encode_of_decodeWord hdec] at hmask
    exact absurd hmask hconstruct
  | installCipher rounds =>
    have hmask := (Laws.EncodingRow.installCipher rounds).1
    have himm := imm1Field_encode_installCipher rounds
    rw [← eq_encode_of_decodeWord hdec] at hmask himm
    have hrounds := two_le_rounds_of_decodeWord hdec
    rw [← himm, imm1Field_toNat] at hrounds
    exact absurd ⟨hmask, hrounds⟩ hinstall
  | encode => exact absurd (eq_encode_of_decodeWord hdec) hencode
  | decode => exact absurd (eq_encode_of_decodeWord hdec) hdecode
  | maximums => exact absurd (eq_encode_of_decodeWord hdec) hmaximums
  | illegal v => rw [eq_encode_of_decodeWord hdec]; rfl

end Sys2Proof
end

section
/-! PROOFS. What each command of spec/40_domain_encoder.md does in every case of its rule (R133 to R138), and how a
command is issued (R130). -/

namespace Sys2Proof.Machine

/-! ### CONSTRUCT (R133) -/

theorem construct_completes {ad bd : Byte} (s : State) (had : 1 ≤ ad.toNat) (hbd : 1 ≤ bd.toNat)
    (hfit : 10 ^ (ad.toNat + bd.toNat) < 2 ^ Config.width) :
    exec (.construct ad bd) s = .next (State.finish { s with dom := some ⟨ad, bd⟩, ctx := none } .ok) := by
  change execConstruct ad bd s = _
  rw [execConstruct, if_neg (by omega), if_neg (Nat.not_le.mpr hfit), completeOk_eq]

theorem construct_invalidDomain {ad bd : Byte} (s : State)
    (hbad : ad.toNat = 0 ∨ bd.toNat = 0 ∨ 2 ^ Config.width ≤ 10 ^ (ad.toNat + bd.toNat)) :
    exec (.construct ad bd) s = .next (s.finish .invalidDomain) := by
  change execConstruct ad bd s = _
  rw [execConstruct]
  split
  · rw [raiseError_eq]
  · rename_i hpos
    have hwide : 2 ^ Config.width ≤ 10 ^ (ad.toNat + bd.toNat) := by
      obtain had | hbd | hwide := hbad
      · omega
      · omega
      · exact hwide
    rw [if_pos hwide, raiseError_eq]

/-- Settles O12: the two outcomes of CONSTRUCT, the digit-sum bound by `width_le_pow_iff`, and its word. -/
theorem constructFollowsItsRule : Obligations.ConstructFollowsItsRule := by
  unfold Obligations.ConstructFollowsItsRule
  intro ad bd s
  refine ⟨construct_completes s, construct_invalidDomain s, ?_, decodeWord_encode_construct ad bd⟩
  rw [← Nat.not_le, width_le_pow_iff, Nat.not_lt]

/-! ### INSTALL_CIPHER (R134) -/

/-- The first bytes of a staging buffer, listed byte by byte. -/
theorem stagedBytes_eq_map_range (buf : Vector Byte 64) {len : Nat} (h : len ≤ 64) :
    stagedBytes buf len = (List.range len).map fun k => buf.toList.getD k 0 := by
  apply List.ext_getElem
  · simp [h]
  · intro k hk _
    have hlt : k < 64 := by simp at hk; omega
    simp [hlt]

section
variable {p : Params} {rounds : Byte} {s : State} {d : Domain} (hd : s.dom = some d)
include hd

theorem installCipherWith_smallDomain (hsize : d.size < 2) :
    installCipherWith p rounds s = .next (s.finish .invalidDomain) := by
  rw [installCipherWith, requireDomain_some hd, if_pos hsize, raiseError_eq]

theorem installCipherWith_invalidKey (hsize : 2 ≤ d.size)
    (hbad : s.keyLen.toNat = 0 ∨ Config.keyMax < s.keyLen.toNat ∨ Config.tweakMax < s.tweakLen.toNat
      ∨ p.rfKeyOk s.stagedKey = false) :
    installCipherWith p rounds s = .next (s.finish .invalidKey) := by
  rw [installCipherWith, requireDomain_some hd, if_neg (Nat.not_lt.mpr hsize)]
  split
  · rw [raiseError_eq]
  · split
    · rw [raiseError_eq]
    · have hkey : p.rfKeyOk s.stagedKey = false := by tauto
      rw [if_pos hkey, raiseError_eq]

theorem installCipherWith_installs (hsize : 2 ≤ d.size) (hkey : 1 ≤ s.keyLen.toNat)
    (hkeyMax : s.keyLen.toNat ≤ Config.keyMax) (htweak : s.tweakLen.toNat ≤ Config.tweakMax)
    (hok : p.rfKeyOk s.stagedKey = true) :
    installCipherWith p rounds s = .next (State.finish
      { s with ctx := some ⟨s.stagedKey, s.stagedTweak, rounds, ceilSqrt d.size⟩ } .ok) := by
  rw [installCipherWith, requireDomain_some hd, if_neg (Nat.not_lt.mpr hsize), if_neg (by omega),
    if_neg (Nat.not_lt.mpr htweak), if_neg (by simp [hok]), completeOk_eq]

end

/-- Settles O14: one lemma per outcome of the checks; a staged string of at most 64 bytes is listed byte by byte. -/
theorem installCipherChecksInOrder : Obligations.InstallCipherChecksInOrder := by
  unfold Obligations.InstallCipherChecksInOrder
  intro p rounds s
  refine ⟨rfl, decodeWord_encode_installCipher, decodeWord_encode_installCipher_few_rounds,
    fun hd => requireDomain_none hd _, fun d hd => installCipherWith_smallDomain hd,
    fun d hd => installCipherWith_invalidKey hd, fun d hd hsize hkey hkeyMax htweak hok => ?_⟩
  exact ⟨_, installCipherWith_installs hd hsize hkey hkeyMax htweak hok,
    stagedBytes_eq_map_range s.keyStage hkeyMax, stagedBytes_eq_map_range s.tweakStage htweak, rfl, rfl⟩

/-! ### ENCODE (R135) -/

/-- A value of a legal domain and a walk count within the guard are stored in their registers as they are. -/
theorem Domain.Legal.registers_hold {p : Params} {d : Domain} {y k : Nat} (hl : d.Legal) (hp : p.Wf) (hy : y < d.size)
    (hk : k ≤ p.walkLimit) : (BitVec.ofNat 256 y).toNat = y ∧ (BitVec.ofNat 32 k).toNat = k := by
  have hsize := hl.size_lt
  have hlimit := hp.limit_le
  exact ⟨Nat.mod_eq_of_lt (by omega), Nat.mod_eq_of_lt (by omega)⟩

theorem encodeWith_outOfRange {p : Params} {s : State} {d : Domain} (hd : s.dom = some d)
    (hbad : d.aMax < s.operandA ∨ d.bMax < s.operandB) : encodeWith p s = .next (s.finish .outOfRange) := by
  rw [encodeWith, requireDomain_some hd, if_pos hbad, raiseError_eq]

section
variable {p : Params} {s : State} {d : Domain} (hd : s.dom = some d) (ha : s.operandA < d.aSize)
  (hb : s.operandB < d.bSize)
include hd ha hb

theorem encodeWith_completes {y k : Nat}
    (h : encipher p s.ctx d.size (pair d s.operandA s.operandB) = some (y, k)) :
    encodeWith p s
      = .next (State.finish { s with cOut := BitVec.ofNat 256 y, cw := BitVec.ofNat 32 k } .ok) := by
  rw [encodeWith_inRange hd ha hb, h, encodeResult, completeOk_eq]

theorem encodeWith_internalError (h : encipher p s.ctx d.size (pair d s.operandA s.operandB) = none) :
    encodeWith p s = .next (s.finish .internalError) := by
  rw [encodeWith_inRange hd ha hb, h, encodeResult, raiseError_eq]

end

/-- Settles O16: one lemma per outcome. The value enciphered is `pair`'s, below `N`, and FWD answers below `N` within the
guard (`encipher_some`), so the registers hold both results (`Domain.Legal.registers_hold`). -/
theorem encodeFollowsItsRule : Obligations.EncodeFollowsItsRule := by
  unfold Obligations.EncodeFollowsItsRule
  intro p s hp
  refine ⟨by decide, rfl, fun hd => requireDomain_none hd _, fun d hd hl =>
    ⟨encodeWith_outOfRange hd, fun ha hb => ?_⟩⟩
  have ha : s.operandA < d.aSize := Domain.le_aMax.mp ha
  have hb : s.operandB < d.bSize := Domain.le_bMax.mp hb
  have hpair := pair_lt ha hb
  refine ⟨fun hctx => ?_, fun c hctx => ⟨fun y k hwalk => ?_, fun hwalk => ?_⟩⟩
  · have hplain : encipher p s.ctx d.size (pair d s.operandA s.operandB) = some (pair d s.operandA s.operandB, 0) := by
      rw [hctx, encipher]
    exact ⟨_, encodeWith_completes hd ha hb hplain, rfl, (hl.registers_hold hp hpair (Nat.zero_le _)).1⟩
  · have hcipher : encipher p s.ctx d.size (pair d s.operandA s.operandB) = some (y, k) := by
      rw [hctx]; exact hwalk
    obtain ⟨hk, hy⟩ := encipher_some hcipher
    obtain ⟨hcOut, hcw⟩ := hl.registers_hold hp (hy hpair) hk
    exact ⟨_, encodeWith_completes hd ha hb hcipher, rfl, hcOut, hcw, hy hpair⟩
  · refine encodeWith_internalError hd ha hb ?_
    rw [hctx]; exact hwalk

/-! ### DECODE (R136) -/

/-- The two fields of a value of a legal domain are stored in their registers as they are, and are a pair of it. -/
theorem Domain.Legal.unpair_registers_hold {d : Domain} {y : Nat} (hl : d.Legal) (hy : y < d.size) :
    (BitVec.ofNat 256 (unpair d y).1).toNat = y / d.bSize ∧ (BitVec.ofNat 256 (unpair d y).2).toNat = y % d.bSize
      ∧ (BitVec.ofNat 256 (unpair d y).1).toNat < d.aSize ∧ (BitVec.ofNat 256 (unpair d y).2).toNat < d.bSize := by
  have hsize := hl.size_lt
  have ha := unpair_fst_lt hy
  have hb := unpair_snd_lt d y
  have haSize := d.aSize_le_size
  have hbSize := d.bSize_le_size
  have haOut : (BitVec.ofNat 256 (unpair d y).1).toNat = (unpair d y).1 := Nat.mod_eq_of_lt (by omega)
  have hbOut : (BitVec.ofNat 256 (unpair d y).2).toNat = (unpair d y).2 := Nat.mod_eq_of_lt (by omega)
  exact ⟨haOut, hbOut, haOut.trans_lt ha, hbOut.trans_lt hb⟩

theorem decodeWith_outOfRange {p : Params} {s : State} {d : Domain} (hd : s.dom = some d)
    (hbad : d.size ≤ s.operandC) : decodeWith p s = .next (s.finish .outOfRange) := by
  rw [decodeWith, requireDomain_some hd, if_pos hbad, raiseError_eq]

section
variable {p : Params} {s : State} {d : Domain} (hd : s.dom = some d) (hc : s.operandC < d.size)
include hd hc

theorem decodeWith_completes {y k : Nat} (h : decipher p s.ctx d.size s.operandC = some (y, k)) :
    decodeWith p s = .next (State.finish
      { s with
        aOut := BitVec.ofNat 256 (unpair d y).1
        bOut := BitVec.ofNat 256 (unpair d y).2
        cw := BitVec.ofNat 32 k } .ok) := by
  rw [decodeWith_inRange hd hc, h, decodeResult, completeOk_eq]

theorem decodeWith_internalError (h : decipher p s.ctx d.size s.operandC = none) :
    decodeWith p s = .next (s.finish .internalError) := by
  rw [decodeWith_inRange hd hc, h, decodeResult, raiseError_eq]

end

/-- Settles O18: one lemma per outcome. INV answers below `N` within the guard (`decipher_some`), so the registers hold
the two fields of its value and the walk count. -/
theorem decodeFollowsItsRule : Obligations.DecodeFollowsItsRule := by
  unfold Obligations.DecodeFollowsItsRule
  intro p s hp
  refine ⟨by decide, rfl, fun hd => requireDomain_none hd _, fun d hd hl =>
    ⟨decodeWith_outOfRange hd, fun hc => ⟨fun hctx => ?_, fun c hctx => ⟨fun y k hwalk => ?_, fun hwalk => ?_⟩⟩⟩⟩
  · have hplain : decipher p s.ctx d.size s.operandC = some (s.operandC, 0) := by rw [hctx, decipher]
    exact ⟨_, decodeWith_completes hd hc hplain, rfl, hl.unpair_registers_hold hc⟩
  · have hcipher : decipher p s.ctx d.size s.operandC = some (y, k) := by rw [hctx]; exact hwalk
    obtain ⟨hk, hy⟩ := decipher_some hcipher
    obtain ⟨haOut, hbOut, hpair⟩ := hl.unpair_registers_hold (hy hc)
    have hcw := (hl.registers_hold hp (hy hc) hk).2
    exact ⟨_, decodeWith_completes hd hc hcipher, rfl, haOut, hbOut, hcw, hpair⟩
  · refine decodeWith_internalError hd hc ?_
    rw [hctx]; exact hwalk

/-! ### MAXIMUMS (R137) -/

theorem maximums_completes {s : State} {d : Domain} (hd : s.dom = some d) :
    exec .maximums s = .next (State.finish
      { s with aOut := BitVec.ofNat 256 d.aMax, bOut := BitVec.ofNat 256 d.bMax } .ok) := by
  change execMaximums s = _
  rw [execMaximums, requireDomain_some hd, completeOk_eq]

theorem Domain.Legal.maximums_hold {d : Domain} (hl : d.Legal) :
    (BitVec.ofNat 256 d.aMax).toNat = d.aMax ∧ (BitVec.ofNat 256 d.bMax).toNat = d.bMax := by
  have hsize := hl.size_lt
  have ha : d.aMax < d.aSize := Domain.le_aMax.mp le_rfl
  have hb : d.bMax < d.bSize := Domain.le_bMax.mp le_rfl
  have haSize := d.aSize_le_size
  have hbSize := d.bSize_le_size
  exact ⟨Nat.mod_eq_of_lt (by omega), Nat.mod_eq_of_lt (by omega)⟩

/-- Settles O20: MAXIMUMS writes the two maximums whatever the context is, and the registers hold them. -/
theorem maximumsFollowsItsRule : Obligations.MaximumsFollowsItsRule := by
  unfold Obligations.MaximumsFollowsItsRule
  intro s
  refine ⟨by decide, fun d hd hl => ?_, fun hd => requireDomain_none hd _⟩
  obtain ⟨ha, hb⟩ := hl.maximums_hold
  exact ⟨_, maximums_completes hd, rfl, ha, hb⟩

/-! ### ILLEGAL (R138) -/

theorem illegal_reports (w : Word) (s : State) : exec (.illegal w) s = .next (s.finish .illegalCommand) := rfl

/-- Settles O21: the selection by `decodeWord_illegal_of_unmatched`, the completion by `illegal_reports`. -/
theorem illegalFollowsItsRule : Obligations.IllegalFollowsItsRule := fun w =>
  ⟨decodeWord_illegal_of_unmatched, illegal_reports w⟩

/-! ### Issue (R130) -/

theorem portWrite_cmd {s : State} (hb : s.busy = false) (w : Word) : portWrite 0x000 w s = s.issue w :=
  portWrite_idle hb .cmd w

/-- Settles O9: a CMD write is `State.issue` while idle and ignored while busy; an issued illegal word is then pending,
and its completion is ILLEGAL's. -/
theorem cmdWriteIssuesWhileIdle : Obligations.CmdWriteIssuesWhileIdle := by
  unfold Obligations.CmdWriteIssuesWhileIdle
  intro s w
  refine ⟨fun hb => portWrite_cmd hb w, fun hb => portWrite_busy hb 0x000 w, fun hb hillegal => ?_⟩
  rw [portWrite_cmd hb, State.issue_pend, hillegal]
  exact ⟨_, illegal_reports w _, rfl⟩

end Sys2Proof.Machine
end

section
/-! PROOFS. The Feistel engine (spec/41_feistel_cipher.md): the split of a value (R171), one round and its inverse
(R174, R176), the order of the rounds (R175, R177) and where a cycle-walk stops (R179, R180). -/

namespace Sys2Proof.Machine

/-- Settles O52: the values are the definitions', the rest is the laws of `split` and `combine`. -/
theorem splitAndCombineAreInverse : Obligations.SplitAndCombineAreInverse := by
  unfold Obligations.SplitAndCombineAreInverse
  refine fun r _ => ⟨fun c hc => ?_, fun L R hL hR => ⟨rfl, combine_lt ⟨hL, hR⟩, split_combine hR⟩⟩
  obtain ⟨hfst, hsnd⟩ := split_below hc
  exact ⟨rfl, hfst, hsnd, combine_split r c⟩

section
variable {rf : RoundFn} {c : CipherContext}

/-! ### One round (R174, R176) -/

/-- The inverse round finds in `L'` the half that the forward round fed to the round function, so it subtracts what was
added. -/
theorem inverseRound_forwardRound {lr : Nat × Nat} (i : Nat) (h : lr.1 < c.r) :
    inverseRound rf c i (forwardRound rf c i lr) = lr :=
  Prod.ext (subMod_add_mod h) rfl

theorem forwardRound_inverseRound {lr : Nat × Nat} (i : Nat) (h : lr.2 < c.r) :
    forwardRound rf c i (inverseRound rf c i lr) = lr :=
  Prod.ext rfl (add_subMod_mod h)

/-! ### The order of the rounds (R175, R177) -/

theorem forwardRounds_eq_foldl (n : Nat) (lr : Nat × Nat) :
    forwardRounds rf c n lr = (List.range n).foldl (fun lr i => forwardRound rf c i lr) lr := by
  induction n with
  | zero => rfl
  | succ n ih => rw [forwardRounds, ih, List.range_succ, List.foldl_concat]

theorem inverseRounds_eq_foldl (n : Nat) (lr : Nat × Nat) :
    inverseRounds rf c n lr = (List.range n).reverse.foldl (fun lr i => inverseRound rf c i lr) lr := by
  induction n generalizing lr with
  | zero => rfl
  | succ n ih => rw [inverseRounds, ih, List.range_succ, List.reverse_concat, List.foldl_cons]

end

/-- Settles O53: the ranges by `forwardRound_below` and `inverseRound_below`, the integer difference by
`subMod_cast`, the cancellations by `inverseRound_forwardRound` and `forwardRound_inverseRound`. -/
theorem inverseRoundUndoesForwardRound : Obligations.InverseRoundUndoesForwardRound := by
  unfold Obligations.InverseRoundUndoesForwardRound
  intro rf c i L R hL hR
  obtain ⟨-, hfwd⟩ := forwardRound_below (rf := rf) (i := i) (lr := (L, R)) ⟨hL, hR⟩
  obtain ⟨hinv, -⟩ := inverseRound_below (rf := rf) (i := i) (lr := (L, R)) ⟨hL, hR⟩
  have hdiff := subMod_cast R (rf c.key c.tweak i L) (Nat.zero_lt_of_lt hL)
  exact ⟨rfl, rfl, hfwd, rfl, hdiff, hinv, inverseRound_forwardRound i hL, forwardRound_inverseRound i hR⟩

/-- Settles O54: each transform's rounds are a fold over their indices, in increasing or decreasing order. -/
theorem transformsRunTheirRounds : Obligations.TransformsRunTheirRounds := by
  unfold Obligations.TransformsRunTheirRounds
  intro rf c x hx
  exact ⟨congrArg (combine c.r) (forwardRounds_eq_foldl _ _), congrArg (combine c.r) (inverseRounds_eq_foldl _ _),
    transformT_lt hx, transformTinv_lt hx⟩

/-! ### Where a walk stops (R179, R180) -/

/-- The first `n` iterates of `t` from `y` all land outside. -/
def StaysOutside (t : Nat → Nat) (size n y : Nat) : Prop := ∀ j, 1 ≤ j → j ≤ n → size ≤ t^[j] y

section
variable {t : Nat → Nat} {size : Nat}

@[simp] theorem staysOutside_zero (y : Nat) : StaysOutside t size 0 y := fun j h1 h0 => by omega

@[simp] theorem staysOutside_succ (n y : Nat) :
    StaysOutside t size (n + 1) y ↔ size ≤ t y ∧ StaysOutside t size n (t y) := by
  refine ⟨fun h => ⟨h 1 le_rfl (by omega), fun j h1 hj => h (j + 1) (by omega) (by omega)⟩,
    fun ⟨hy, h⟩ j h1 hj => ?_⟩
  obtain _ | _ | j := j
  · omega
  · exact hy
  · exact h (j + 1) (by omega) (by omega)

theorem cycleWalk_eq_none_iff {left y k : Nat} :
    cycleWalk t size left y k = none ↔ StaysOutside t size left y := by
  induction left generalizing y k with
  | zero => simp [cycleWalk]
  | succ left ih =>
    obtain hin | hout := Nat.lt_or_ge (t y) size
    · simp [cycleWalk_inside left k hin, hin]
    · simp [cycleWalk_outside left k hout, ih, hout]

/-- A walk that answers has counted at least one application. -/
theorem cycleWalk_ne_some_same {left y k v : Nat} : cycleWalk t size left y k ≠ some (v, k) := fun h => by
  obtain ⟨-, hlt, -⟩ := cycleWalk_some h
  omega

theorem cycleWalk_eq_some_iff {left y k v n : Nat} :
    cycleWalk t size left y k = some (v, k + (n + 1)) ↔
      n < left ∧ v = t^[n + 1] y ∧ v < size ∧ StaysOutside t size n y := by
  induction left generalizing y k n with
  | zero => simp [cycleWalk]
  | succ left ih =>
    obtain hin | hout := Nat.lt_or_ge (t y) size
    · rw [cycleWalk_inside left k hin]
      cases n with
      | zero =>
        have hlt : v = t y → v < size := fun hv => hv ▸ hin
        simpa [eq_comm] using hlt
      | succ n => simp [hin]
    · rw [cycleWalk_outside left k hout]
      cases n with
      | zero =>
        have hge : v = t y → size ≤ v := fun hv => hv ▸ hout
        simpa [cycleWalk_ne_some_same] using hge
      | succ n =>
        rw [show k + (n + 1 + 1) = k + 1 + (n + 1) by omega, ih]
        simp [hout]

/-- A walk from its beginning, with the count as the iterate's number. -/
theorem cycleWalk_answers_iff {limit x y k : Nat} :
    cycleWalk t size limit x 0 = some (y, k) ↔
      1 ≤ k ∧ k ≤ limit ∧ y = t^[k] x ∧ y < size ∧ ∀ j, 1 ≤ j → j < k → size ≤ t^[j] x := by
  cases k with
  | zero => simp [cycleWalk_ne_some_same]
  | succ n =>
    have hwalk := cycleWalk_eq_some_iff (t := t) (size := size) (left := limit) (y := x) (k := 0) (v := y) (n := n)
    rw [Nat.zero_add, StaysOutside] at hwalk
    simp [hwalk, Nat.succ_le_iff]

end

/-- Settles O56: FWD and INV are the same walk with T and with Tinv, so `cycleWalk_answers_iff` and
`cycleWalk_eq_none_iff` say both. -/
theorem walksStopAtTheFirstValueInside : Obligations.WalksStopAtTheFirstValueInside := by
  unfold Obligations.WalksStopAtTheFirstValueInside
  exact fun p c size x => ⟨fun y k => cycleWalk_answers_iff, cycleWalk_eq_none_iff, fun y k => cycleWalk_answers_iff,
    cycleWalk_eq_none_iff⟩

end Sys2Proof.Machine
end

section
/-! PROOFS. The errors of spec/60_exceptions.md: the cause of each status code (R211 to R215), and that an error changes
ERR and BUSY alone (R217). -/

namespace Sys2Proof.Machine

/-! ### What an error leaves unchanged (R217) -/

/-- Of the two ways a command ends, the one with OK leaves the code 0, so a code other than 0 is an error's. -/
theorem exec_error_frame {i : Instr} {s t : State} (h : exec i s = .next t) (herr : t.err ≠ 0) :
    t = { s with err := t.err, busy := false } := by
  obtain ⟨e, -, hend⟩ | ⟨w, -, hend⟩ := exec_ends i s
  · obtain rfl : t = s.finish e := by simpa [h] using hend
    rfl
  · obtain rfl : t = w.finish .ok := by simpa [h] using hend
    exact absurd rfl herr

/-- Settles O24, by `exec_error_frame`. -/
theorem errorChangesOnlyErrAndBusy : Obligations.ErrorChangesOnlyErrAndBusy := fun _ _ _ => exec_error_frame

/-! ### The cause of each code (R211 to R215) -/

theorem encipher_eq_none_iff {p : Params} {ctx : Option CipherContext} {size x : Nat} :
    encipher p ctx size x = none ↔ ∃ c, ctx = some c ∧ StaysOutside (transformT p.rf c) size p.walkLimit x := by
  cases ctx with
  | none => simp [encipher]
  | some c => simp [encipher, fwd, cycleWalk_eq_none_iff]

theorem decipher_eq_none_iff {p : Params} {ctx : Option CipherContext} {size x : Nat} :
    decipher p ctx size x = none ↔ ∃ c, ctx = some c ∧ StaysOutside (transformTinv p.rf c) size p.walkLimit x := by
  cases ctx with
  | none => simp [decipher]
  | some c => simp [decipher, inv, cycleWalk_eq_none_iff]

/-- The cases in which the command `i` in the state `s` raises a code: R211 to R215, one rule per code. -/
def ErrorCause (i : Instr) (s : State) : ErrCode → Prop
  | .ok => False
  | .invalidDomain =>
    (∃ ad bd, i = .construct ad bd
      ∧ (ad.toNat = 0 ∨ bd.toNat = 0 ∨ 2 ^ Config.width ≤ 10 ^ (ad.toNat + bd.toNat)))
    ∨ (((∃ rounds, i = .installCipher rounds) ∨ i = .encode ∨ i = .decode ∨ i = .maximums) ∧ s.dom = none)
    ∨ ∃ rounds d, i = .installCipher rounds ∧ s.dom = some d ∧ d.size < 2
  | .invalidKey => ∃ rounds d, i = .installCipher rounds ∧ s.dom = some d ∧ 2 ≤ d.size
    ∧ (s.keyLen.toNat = 0 ∨ Config.keyMax < s.keyLen.toNat ∨ Config.tweakMax < s.tweakLen.toNat
      ∨ Config.params.rfKeyOk s.stagedKey = false)
  | .outOfRange => ∃ d, s.dom = some d
    ∧ ((i = .encode ∧ (d.aMax < s.operandA ∨ d.bMax < s.operandB)) ∨ (i = .decode ∧ d.size ≤ s.operandC))
  | .internalError => ∃ d c, s.dom = some d ∧ s.ctx = some c
    ∧ ((i = .encode ∧ s.operandA ≤ d.aMax ∧ s.operandB ≤ d.bMax
        ∧ StaysOutside (transformT Config.params.rf c) d.size Config.params.walkLimit
          (pair d s.operandA s.operandB))
      ∨ (i = .decode ∧ s.operandC < d.size
        ∧ StaysOutside (transformTinv Config.params.rf c) d.size Config.params.walkLimit s.operandC))
  | .illegalCommand => ∃ w, i = .illegal w

/-- A cause suffices: the command then ends with that code and nothing more. -/
theorem exec_of_errorCause {i : Instr} {s : State} {e : ErrCode} (h : ErrorCause i s e) :
    exec i s = .next (s.finish e) := by
  cases e with
  | ok => exact h.elim
  | invalidDomain =>
    obtain ⟨ad, bd, rfl, hbad⟩ | ⟨⟨rounds, rfl⟩ | rfl | rfl | rfl, hd⟩ | ⟨rounds, d, rfl, hd, hsize⟩ := h
    · exact construct_invalidDomain s hbad
    · exact requireDomain_none hd _
    · exact requireDomain_none hd _
    · exact requireDomain_none hd _
    · exact requireDomain_none hd _
    · exact installCipherWith_smallDomain hd hsize
  | invalidKey =>
    obtain ⟨rounds, d, rfl, hd, hsize, hbad⟩ := h
    exact installCipherWith_invalidKey hd hsize hbad
  | outOfRange =>
    obtain ⟨d, hd, ⟨rfl, hbad⟩ | ⟨rfl, hbad⟩⟩ := h
    · exact encodeWith_outOfRange hd hbad
    · exact decodeWith_outOfRange hd hbad
  | internalError =>
    obtain ⟨d, c, hd, hctx, ⟨rfl, ha, hb, hwalk⟩ | ⟨rfl, hc, hwalk⟩⟩ := h
    · exact encodeWith_internalError hd (Domain.le_aMax.mp ha) (Domain.le_bMax.mp hb)
        (encipher_eq_none_iff.mpr ⟨c, hctx, hwalk⟩)
    · exact decodeWith_internalError hd hc (decipher_eq_none_iff.mpr ⟨c, hctx, hwalk⟩)
  | illegalCommand =>
    obtain ⟨w, rfl⟩ := h
    exact illegal_reports w s

/-- The command `i` in the state `s` has one of the causes of an error, or it completes with OK. -/
def FailsByCauseOrCompletes (i : Instr) (s : State) : Prop :=
  (∃ e, ErrorCause i s e) ∨ ∃ w : State, exec i s = .next (w.finish .ok)

theorem construct_failsByCause_or_completes (ad bd : Byte) (s : State) :
    FailsByCauseOrCompletes (.construct ad bd) s := by
  by_cases hbad : ad.toNat = 0 ∨ bd.toNat = 0 ∨ 2 ^ Config.width ≤ 10 ^ (ad.toNat + bd.toNat)
  · exact .inl ⟨.invalidDomain, .inl ⟨ad, bd, rfl, hbad⟩⟩
  · obtain ⟨had, hbd, hfit⟩ : ad.toNat ≠ 0 ∧ bd.toNat ≠ 0 ∧ 10 ^ (ad.toNat + bd.toNat) < 2 ^ Config.width := by
      simpa only [not_or, Nat.not_le] using hbad
    exact .inr ⟨_, construct_completes s (Nat.pos_of_ne_zero had) (Nat.pos_of_ne_zero hbd) hfit⟩

section
variable {s : State} {d : Domain} (hd : s.dom = some d)
include hd

theorem installCipher_failsByCause_or_completes (rounds : Byte) :
    FailsByCauseOrCompletes (.installCipher rounds) s := by
  obtain hsmall | hsize := Nat.lt_or_ge d.size 2
  · exact .inl ⟨.invalidDomain, .inr (.inr ⟨rounds, d, rfl, hd, hsmall⟩)⟩
  by_cases hbad : s.keyLen.toNat = 0 ∨ Config.keyMax < s.keyLen.toNat ∨ Config.tweakMax < s.tweakLen.toNat
      ∨ Config.params.rfKeyOk s.stagedKey = false
  · exact .inl ⟨.invalidKey, rounds, d, rfl, hd, hsize, hbad⟩
  · obtain ⟨hkey, hkeyMax, htweak, hok⟩ : s.keyLen.toNat ≠ 0 ∧ s.keyLen.toNat ≤ Config.keyMax
        ∧ s.tweakLen.toNat ≤ Config.tweakMax ∧ Config.params.rfKeyOk s.stagedKey = true := by
      simpa only [not_or, Nat.not_lt, Bool.not_eq_false] using hbad
    exact .inr ⟨_, installCipherWith_installs hd hsize (Nat.pos_of_ne_zero hkey) hkeyMax htweak hok⟩

theorem encode_failsByCause_or_completes : FailsByCauseOrCompletes .encode s := by
  by_cases hbad : d.aMax < s.operandA ∨ d.bMax < s.operandB
  · exact .inl ⟨.outOfRange, d, hd, .inl ⟨rfl, hbad⟩⟩
  rw [not_or, Nat.not_lt, Nat.not_lt] at hbad
  obtain ⟨ha, hb⟩ := hbad
  cases hwalk : encipher Config.params s.ctx d.size (pair d s.operandA s.operandB) with
  | none =>
    obtain ⟨c, hctx, houtside⟩ := encipher_eq_none_iff.mp hwalk
    exact .inl ⟨.internalError, d, c, hd, hctx, .inl ⟨rfl, ha, hb, houtside⟩⟩
  | some yk => exact .inr ⟨_, encodeWith_completes hd (Domain.le_aMax.mp ha) (Domain.le_bMax.mp hb) hwalk⟩

theorem decode_failsByCause_or_completes : FailsByCauseOrCompletes .decode s := by
  obtain hc | hbad := Nat.lt_or_ge s.operandC d.size
  · cases hwalk : decipher Config.params s.ctx d.size s.operandC with
    | none =>
      obtain ⟨c, hctx, houtside⟩ := decipher_eq_none_iff.mp hwalk
      exact .inl ⟨.internalError, d, c, hd, hctx, .inr ⟨rfl, hc, houtside⟩⟩
    | some yk => exact .inr ⟨_, decodeWith_completes hd hc hwalk⟩
  · exact .inl ⟨.outOfRange, d, hd, .inr ⟨rfl, hbad⟩⟩

end

/-- For the commands that R132 holds to a configured domain, its absence is a cause (R211). -/
theorem failsByCause_or_completes_of_domain {i : Instr} {s : State}
    (hi : (∃ rounds, i = .installCipher rounds) ∨ i = .encode ∨ i = .decode ∨ i = .maximums)
    (hgo : ∀ d, s.dom = some d → FailsByCauseOrCompletes i s) : FailsByCauseOrCompletes i s := by
  cases hd : s.dom with
  | none => exact .inl ⟨.invalidDomain, .inr (.inl ⟨hi, hd⟩)⟩
  | some d => exact hgo d hd

/-- A cause is needed: a command without one completes with OK. -/
theorem exec_failsByCause_or_completes (i : Instr) (s : State) : FailsByCauseOrCompletes i s := by
  cases i with
  | construct ad bd => exact construct_failsByCause_or_completes ad bd s
  | installCipher rounds =>
    exact failsByCause_or_completes_of_domain (.inl ⟨rounds, rfl⟩) fun _ hd =>
      installCipher_failsByCause_or_completes hd rounds
  | encode =>
    exact failsByCause_or_completes_of_domain (.inr (.inl rfl)) fun _ => encode_failsByCause_or_completes
  | decode =>
    exact failsByCause_or_completes_of_domain (.inr (.inr (.inl rfl))) fun _ => decode_failsByCause_or_completes
  | maximums =>
    exact failsByCause_or_completes_of_domain (.inr (.inr (.inr rfl))) fun _ hd => .inr ⟨_, maximums_completes hd⟩
  | illegal w => exact .inl ⟨.illegalCommand, w, rfl⟩

/-- A command's answer is unique, so its code is that of its one cause. -/
theorem exec_err_iff {i : Instr} {s t : State} (h : exec i s = .next t) {e : ErrCode} (he : e ≠ .ok) :
    t.err = e.toBits ↔ ErrorCause i s e := by
  refine ⟨fun herr => ?_, fun hcause => ?_⟩
  · obtain ⟨e', hcause⟩ | ⟨w, hok⟩ := exec_failsByCause_or_completes i s
    · obtain rfl : t = s.finish e' := by simpa [h] using exec_of_errorCause hcause
      rwa [← errCode_toBits_inj herr]
    · obtain rfl : t = w.finish .ok := by simpa [h] using hok
      exact absurd (errCode_toBits_inj (e := .ok) herr).symm he
  · obtain rfl : t = s.finish e := by simpa [h] using exec_of_errorCause hcause
    rfl

/-- Settles O23: `exec_err_iff` at each of the five codes, and R217's frame. -/
theorem statusCodesHaveExactlyTheirCauses : Obligations.StatusCodesHaveExactlyTheirCauses := fun _ _ _ h =>
  ⟨exec_err_iff h (e := .invalidDomain) (by decide), exec_err_iff h (e := .invalidKey) (by decide),
    exec_err_iff h (e := .outOfRange) (by decide), exec_err_iff h (e := .internalError) (by decide),
    exec_err_iff h (e := .illegalCommand) (by decide), exec_error_frame h⟩

end Sys2Proof.Machine
end

section
/-! PROOFS. Decoding and encoding (spec/30_encoding.md): which words are illegal (R106), that the decoder undoes the encoder
on well-formed commands and the encoder the decoder on every word (R107), and the turn that completes an illegal word. -/

namespace Sys2Proof

/-! ### Illegal words (R106) -/

/-- R106's list, by the fields of the word. -/
theorem illegalWord_iff (w : Word) : illegalWord w = true ↔
    ((opField w).toNat = 0 ∨ 6 ≤ (opField w).toNat
      ∨ (res0Field w).toNat ≠ 0 ∨ (res1Field w).toNat ≠ 0
      ∨ ((opField w).toNat = 2 ∧ ((imm2Field w).toNat ≠ 0 ∨ (imm1Field w).toNat < 2))
      ∨ (((opField w).toNat = 3 ∨ (opField w).toNat = 4 ∨ (opField w).toNat = 5)
        ∧ ((imm1Field w).toNat ≠ 0 ∨ (imm2Field w).toNat ≠ 0))) :=
  decide_eq_true_iff

/-- The decoder falls through to ILLEGAL exactly on R106's list. -/
theorem decodeWord_eq_illegal_iff (w : Word) : decodeWord w = .illegal w ↔ illegalWord w = true := by
  rw [decodeWord_toNat, illegalWord_iff]
  split_ifs <;> simp only [true_iff, false_iff] <;> omega

/-! ### The round trip -/

theorem decodeWord_encode {i : Instr} (h : i.wellFormed = true) : decodeWord (encode i) = i := by
  cases i with
  | construct ad bd => exact decodeWord_encode_construct ad bd
  | installCipher rounds => exact decodeWord_encode_installCipher (of_decide_eq_true h)
  | encode => decide
  | decode => decide
  | maximums => decide
  | illegal w => exact (decodeWord_eq_illegal_iff w).mpr h

theorem decodeBytes_bytesOfWord (w : Word) (rest : List Byte) :
    decodeBytes (bytesOfWord w ++ rest) = .ok (decodeWord w, rest) := by
  simp [bytesOfWord, decodeBytes, wordOfLanes_laneOf]

/-- Settles O4, by `decodeWord_encode`; the byte form is a word's four lanes put together again. -/
theorem decodeOfEncodeIsIdentity : Obligations.DecodeOfEncodeIsIdentity := by
  unfold Obligations.DecodeOfEncodeIsIdentity
  intro i h
  have hword := decodeWord_encode h
  exact ⟨hword, fun rest => by rw [encodeBytes, decodeBytes_bytesOfWord, hword]⟩

theorem wellFormed_decodeWord (w : Word) : (decodeWord w).wellFormed = true := by
  cases hdec : decodeWord w with
  | installCipher rounds => exact decide_eq_true (two_le_rounds_of_decodeWord hdec)
  | illegal v =>
    have hv : w = v := eq_encode_of_decodeWord hdec
    exact (decodeWord_eq_illegal_iff v).mp (hv ▸ hdec)
  | _ => rfl

/-- Settles O5: the decoder's tests are the well-formedness of its answer, and `encode_decodeWord`. -/
theorem everyWordDecodesToItsInstruction : Obligations.EveryWordDecodesToItsInstruction := fun w =>
  ⟨wellFormed_decodeWord w, encode_decodeWord w⟩

/-- Settles O8, by evaluating the decoder at the eleven words. -/
theorem wordsOfTheSpecDecode : Obligations.WordsOfTheSpecDecode := by
  unfold Obligations.WordsOfTheSpecDecode
  decide

end Sys2Proof

namespace Sys2Proof.Machine

theorem step_engine {s : State} {rest : List PortEvent} (ho : s.order = .engine :: rest) :
    step s = engineTurn (s.withOrder rest) := step_cons ho

theorem engineTurn_illegal {s : State} (hb : s.busy = true) (h : decodeWord s.pend = .illegal s.pend) :
    engineTurn s = .next (s.finish .illegalCommand) := by
  rw [engineTurn_busy hb, h, illegal_reports]

/-- Settles O7: `decodeWord_eq_illegal_iff` with the fields as numbers, and the engine's turn on an illegal word. -/
theorem illegalWordsAreThoseListed : Obligations.IllegalWordsAreThoseListed := by
  unfold Obligations.IllegalWordsAreThoseListed
  intro w
  refine ⟨?_, fun s hpend hb hillegal => ?_⟩
  · have hw := w.isLt
    rw [decodeWord_eq_illegal_iff, illegalWord_iff, opField_toNat, res0Field_toNat, imm1Field_toNat, imm2Field_toNat,
      res1Field_toNat]
    omega
  · subst hpend
    exact ⟨fun ho => (step_nil ho).trans (engineTurn_illegal hb hillegal),
      fun rest ho => (step_engine ho).trans (engineTurn_illegal (s := s.withOrder rest) hb hillegal)⟩

end Sys2Proof.Machine
end

section
/-! PROOFS. What a command answers and what it leaves unchanged, for all commands at once (spec/60_exceptions.md R217,
R218, R220; spec/10_state.md R32, R33). -/

namespace Sys2Proof.Machine

/-! ### What a command may write -/

/-- A command's own writes are to the engine's components: the domain, the context, the walk count and the results. -/
theorem SuccessWrites.frame {p : Params} {i : Instr} {s w : State} (h : SuccessWrites p i s w) :
    w = { s with dom := w.dom, ctx := w.ctx, cw := w.cw, aOut := w.aOut, bOut := w.bOut, cOut := w.cOut } := by
  cases i with
  | construct ad bd => obtain ⟨-, rfl⟩ := h; rfl
  | installCipher rounds => obtain ⟨d, -, -, -, -, -, -, rfl⟩ := h; rfl
  | encode => obtain ⟨d, c, k, -, -, -, -, rfl⟩ := h; rfl
  | decode => obtain ⟨d, c, k, -, -, -, rfl⟩ := h; rfl
  | maximums => obtain ⟨d, -, rfl⟩ := h; rfl
  | illegal w => exact h.elim

/-- How a command that answers `t` ended: an error's code alone, or its rule's writes and OK. -/
theorem exec_next {i : Instr} {s t : State} (h : exec i s = .next t) :
    (∃ e, e ≠ .ok ∧ t = s.finish e) ∨ ∃ w, SuccessWrites Config.params i s w ∧ t = w.finish .ok := by
  obtain ⟨e, he, hend⟩ | ⟨w, hw, hend⟩ := exec_ends i s
  · exact .inl ⟨e, he, Host.Outcome.next.inj (h.symm.trans hend)⟩
  · exact .inr ⟨w, hw, Host.Outcome.next.inj (h.symm.trans hend)⟩

theorem exec_answers (i : Instr) (s : State) : ∃ t, exec i s = .next t := by
  obtain ⟨e, -, hend⟩ | ⟨w, -, hend⟩ := exec_ends i s
  · exact ⟨_, hend⟩
  · exact ⟨_, hend⟩

/-- What a command leaves unchanged: all but the engine's components, the code, and BUSY, which it clears. -/
theorem exec_frame {i : Instr} {s t : State} (h : exec i s = .next t) :
    t = { s with
      dom := t.dom, ctx := t.ctx, cw := t.cw, aOut := t.aOut, bOut := t.bOut, cOut := t.cOut
      err := t.err, busy := false } := by
  obtain ⟨e, -, rfl⟩ | ⟨w, hw, rfl⟩ := exec_next h
  · rfl
  · exact congrArg (State.finish · .ok) hw.frame

theorem exec_idle {i : Instr} {s t : State} (h : exec i s = .next t) : t.busy = false := by
  rw [exec_frame h]

theorem exec_err_le {i : Instr} {s t : State} (h : exec i s = .next t) : t.err.toNat ≤ 5 := by
  obtain ⟨e, -, rfl⟩ | ⟨w, -, rfl⟩ := exec_next h
  · exact errCode_toBits_le e
  · exact errCode_toBits_le .ok

/-- Settles O11: a command answers (`exec_answers`) with its frame (`exec_frame`). -/
theorem everyCommandCompletes : Obligations.EveryCommandCompletes := by
  unfold Obligations.EveryCommandCompletes
  intro i s
  obtain ⟨t, ht⟩ := exec_answers i s
  refine ⟨t, ht, exec_idle ht, exec_err_le ht, ?_⟩
  rw [exec_frame ht]
  simp

/-- Settles O25: the rules of the commands read every component but the code, which their ends write anew. -/
theorem errIsNotSticky : Obligations.ErrIsNotSticky := by
  unfold Obligations.ErrIsNotSticky
  intro i s e
  cases i <;> rfl

/-- Only the setup commands touch the domain and the context. -/
theorem exec_setup {i : Instr} {s t : State} (h : exec i s = .next t) :
    (∃ ad bd, i = .construct ad bd)
      ∨ (t.dom = s.dom ∧ (t.ctx = s.ctx ∨ ∃ rounds, i = .installCipher rounds)) := by
  obtain ⟨e, -, rfl⟩ | ⟨w, hw, rfl⟩ := exec_next h
  · exact .inr ⟨rfl, .inl rfl⟩
  · cases i with
    | construct ad bd => exact .inl ⟨ad, bd, rfl⟩
    | installCipher rounds =>
      obtain ⟨d, -, -, -, -, -, -, rfl⟩ := hw
      exact .inr ⟨rfl, .inr ⟨rounds, rfl⟩⟩
    | encode => obtain ⟨d, c, k, -, -, -, -, rfl⟩ := hw; exact .inr ⟨rfl, .inl rfl⟩
    | decode => obtain ⟨d, c, k, -, -, -, rfl⟩ := hw; exact .inr ⟨rfl, .inl rfl⟩
    | maximums => obtain ⟨d, -, rfl⟩ := hw; exact .inr ⟨rfl, .inl rfl⟩
    | illegal w => exact hw.elim

end Sys2Proof.Machine
end

section
/-! PROOFS. The steps of the whole machine: the invariant, which steps answer, the busy window, and completion
(spec/10_state.md R32 to R35, R50; spec/20_memory.md R72, R76; spec/70_reset_and_hazards.md R250, R257). -/

namespace Sys2Proof.Machine

/-- What the engine's turn does: nothing while no command is pending, else it runs the pending command. -/
theorem engineTurn_next {s t : State} (h : engineTurn s = .next t) :
    (s.busy = false ∧ t = s) ∨ (s.busy = true ∧ exec (decodeWord s.pend) s = .next t) := by
  cases hb : s.busy with
  | false =>
    rw [engineTurn_idle hb] at h
    exact .inl ⟨rfl, (Host.Outcome.next.inj h).symm⟩
  | true =>
    rw [engineTurn_busy hb] at h
    exact .inr ⟨rfl, h⟩

/-! ### The invariant -/

/-- Settles O41: nothing is configured or installed after reset. -/
theorem resetMeetsTheInvariant : Obligations.ResetMeetsTheInvariant where
  domain_legal _ h := nomatch h
  context_fits _ h := nomatch h
  walk_count := Nat.zero_le _
  err_defined := Nat.zero_le _

theorem State.Inv.finish {s : State} (h : s.Inv) (e : ErrCode) : (s.finish e).Inv :=
  ⟨h.domain_legal, h.context_fits, h.walk_count, errCode_toBits_le e⟩

/-- A walk count within the guard keeps CW_COUNT's range (R40). -/
theorem walkCount_le {k : Nat} (hk : k ≤ Config.params.walkLimit) :
    (BitVec.ofNat 32 k).toNat ≤ Config.params.walkLimit :=
  (Nat.mod_le k (2 ^ 32)).trans hk

theorem stagedBytes_length (buf : Vector Byte 64) {len : Nat} (h : len ≤ 64) :
    (stagedBytes buf len).length = len := by
  simp [h]

/-- What a well-formed command writes keeps the invariant: CONSTRUCT's checks are R32, INSTALL_CIPHER's are R33, and
its radix is R34's. -/
theorem SuccessWrites.inv {i : Instr} {s w : State} (h : SuccessWrites Config.params i s w)
    (hwf : i.wellFormed = true) (hs : s.Inv) : w.Inv := by
  cases i with
  | construct ad bd =>
    obtain ⟨hlegal, rfl⟩ := h
    exact ⟨fun d hd => Option.some.inj hd ▸ hlegal, fun c hc => (nomatch hc), hs.walk_count, hs.err_defined⟩
  | installCipher rounds =>
    obtain ⟨d, hd, -, hkey, hkeyMax, htweak, hok, rfl⟩ := h
    have hkeyLen := stagedBytes_length s.keyStage hkeyMax
    have htweakLen := stagedBytes_length s.tweakStage htweak
    refine ⟨hs.domain_legal, fun c hc => ⟨d, hd, ?_⟩, hs.walk_count, hs.err_defined⟩
    obtain rfl := Option.some.inj hc
    exact ⟨⟨hkeyLen.symm ▸ hkey, hkeyLen.symm ▸ hkeyMax⟩, hok, htweakLen.symm ▸ htweak, of_decide_eq_true hwf, rfl⟩
  | encode =>
    obtain ⟨d, c, k, -, -, -, hwalk, rfl⟩ := h
    exact ⟨hs.domain_legal, hs.context_fits, walkCount_le (encipher_some hwalk).1, hs.err_defined⟩
  | decode =>
    obtain ⟨d, c, k, -, -, hwalk, rfl⟩ := h
    exact ⟨hs.domain_legal, hs.context_fits, walkCount_le (decipher_some hwalk).1, hs.err_defined⟩
  | maximums =>
    obtain ⟨d, -, rfl⟩ := h
    exact hs.congr rfl rfl rfl rfl
  | illegal w => exact h.elim

theorem exec_inv {i : Instr} {s t : State} (h : exec i s = .next t) (hwf : i.wellFormed = true) (hs : s.Inv) :
    t.Inv := by
  obtain ⟨e, -, rfl⟩ | ⟨w, hw, rfl⟩ := exec_next h
  · exact hs.finish e
  · exact (hw.inv hwf hs).finish .ok

theorem portWrite_inv {s : State} (off : Offset) (v : Word) (hs : s.Inv) : (portWrite off v s).Inv := by
  obtain ⟨hdom, hctx, hcw, herr, -, -⟩ := portWrite_keeps off v s
  exact hs.congr hdom hctx hcw herr

/-- The engine's turn is a well-formed command's, whatever word is pending (`wellFormed_decodeWord`). -/
theorem engineTurn_inv {s t : State} (h : engineTurn s = .next t) (hs : s.Inv) : t.Inv := by
  obtain ⟨-, rfl⟩ | ⟨-, hexec⟩ := engineTurn_next h
  · exact hs
  · exact exec_inv hexec (wellFormed_decodeWord s.pend) hs

/-- Settles O42: one lemma per kind of turn; a read and the order are no part of the invariant. -/
theorem everyStepKeepsTheInvariant : Obligations.EveryStepKeepsTheInvariant := by
  unfold Obligations.EveryStepKeepsTheInvariant
  intro s t hs hstep
  have hrest (rest : List PortEvent) : (s.withOrder rest).Inv := hs.congr rfl rfl rfl rfl
  cases step_next hstep with
  | read off rest _ _ ht => exact ht ▸ (hrest rest).congr rfl rfl rfl rfl
  | write off v rest _ _ ht => exact ht ▸ portWrite_inv off v (hrest rest)
  | engine rest _ ht => exact engineTurn_inv ht (hrest rest)
  | reset rest _ ht => exact ht ▸ State.Inv.congr resetMeetsTheInvariant rfl rfl rfl rfl

/-! ### Steps that answer -/

/-- With a defined code an admitted access answers: the port refuses and faults nothing else. -/
theorem step_access_answers {s : State} {a : Access} {rest : List PortEvent} (ho : s.order = .access a :: rest)
    (hadm : a.admitted = true) (herr : s.err.toNat ≤ 5) : ∃ t, step s = .next t := by
  obtain ⟨kind, off, bytes, beats⟩ := a
  obtain ⟨rfl, rfl, hal⟩ := (admitted_iff _).mp hadm
  cases kind with
  | read => exact ⟨_, step_read hal (.inr herr) ho⟩
  | write v => exact ⟨_, step_write hal ho⟩

/-- Settles O43: an access answers because the code is defined, the engine always, and reset always. -/
theorem goodStatesNeverFault : Obligations.GoodStatesNeverFault := by
  unfold Obligations.GoodStatesNeverFault SafeStep
  intro s hs hallowed
  cases ho : s.order with
  | nil =>
    rw [step_nil ho]
    exact engineTurn_answers s
  | cons e rest =>
    have he : e.allowed = true := hallowed e (by simp [ho])
    cases e with
    | access a => exact step_access_answers ho he hs.err_defined
    | engine =>
      rw [step_engine ho]
      exact engineTurn_answers _
    | reset => exact ⟨_, step_cons ho⟩
    | accessInReset a => exact nomatch he

/-! ### The busy window -/

theorem engineTurn_idle_after {s t : State} (h : engineTurn s = .next t) : t.busy = false := by
  obtain ⟨hb, rfl⟩ | ⟨-, hexec⟩ := engineTurn_next h
  · exact hb
  · exact exec_idle hexec

/-- Settles O44: a write of an idle block issues or stores, a write of a busy one does nothing, and the engine's turn
and reset leave the block idle. -/
theorem busyChangesOnlyByIssueCompletionReset : Obligations.BusyChangesOnlyByIssueCompletionReset := by
  unfold Obligations.BusyChangesOnlyByIssueCompletionReset
  intro s t hstep
  cases step_next hstep with
  | read off rest _ _ ht =>
    subst ht
    simp +contextual
  | write off v rest ho _ ht =>
    obtain ⟨-, hw⟩ | ⟨hb, hoff, hw⟩ | ⟨-, hw⟩ := portWrite_cases off v (s.withOrder rest)
    · rw [ht, hw]; simp +contextual
    · obtain rfl := offset_eq_zero hoff
      have hb' : s.busy = false := hb
      exact ⟨fun _ _ => ⟨v, rest, ho, ht.trans hw⟩, by simp [hb'], by simp [hb']⟩
    · rw [← ht, Stores] at hw
      rw [hw]; simp +contextual
  | engine rest ho ht =>
    have hidle := engineTurn_idle_after ht
    refine ⟨by simp [hidle], fun _ _ => ?_, by simp [hidle]⟩
    obtain ho | ⟨ho, -⟩ := ho
    · exact .inr (.inl ⟨rest, ho⟩)
    · exact .inl ho
  | reset rest ho ht =>
    have hidle : t.busy = false := by rw [ht]; rfl
    exact ⟨by simp [hidle], fun _ _ => .inr (.inr ⟨rest, ho⟩), by simp [hidle]⟩

/-- While a command is pending a host access moves the port's order and the replies alone. -/
theorem step_access_busy {s t : State} {a : Access} {rest : List PortEvent} (hb : s.busy = true)
    (ho : s.order = .access a :: rest) (hstep : step s = .next t) :
    t = { s with order := rest, replies := t.replies } := by
  rw [step_cons ho] at hstep
  obtain ⟨off, -, -, rfl⟩ | ⟨off, v, -, -, rfl⟩ := portAccess_next hstep
  · rfl
  · rw [portWrite_busy (s := s.withOrder rest) hb]; rfl

/-- Settles O45, by `step_access_busy`. -/
theorem nothingMovesWhileBusy : Obligations.NothingMovesWhileBusy := fun _ _ _ _ => step_access_busy

/-- Settles O46: accesses leave the domain and the context (`portWrite_keeps`), and of the commands only the setup
commands do not (`exec_setup`). -/
theorem onlySetupWritesDomainAndContext : Obligations.OnlySetupWritesDomainAndContext := by
  unfold Obligations.OnlySetupWritesDomainAndContext
  intro s t hstep
  cases step_next hstep with
  | read off rest _ _ ht => subst ht; simp
  | write off v rest _ _ ht =>
    obtain ⟨hdom, hctx, -⟩ := portWrite_keeps off v (s.withOrder rest)
    subst ht
    exact ⟨(absurd hdom ·), (absurd hctx ·)⟩
  | engine rest _ ht =>
    obtain ⟨-, rfl⟩ | ⟨hb, hexec⟩ := engineTurn_next ht
    · simp
    · obtain hconstruct | ⟨hdom, hctx⟩ := exec_setup hexec
      · exact ⟨fun _ => .inr ⟨hb, hconstruct⟩, fun _ => .inr ⟨hb, .inl hconstruct⟩⟩
      · exact ⟨(absurd hdom ·), fun hne => .inr ⟨hb, .inr (hctx.resolve_left hne)⟩⟩
  | reset rest ho _ => exact ⟨fun _ => .inl ⟨rest, ho⟩, fun _ => .inl ⟨rest, ho⟩⟩

/-! ### Completion -/

/-- Settles O10: the engine's turn, listed or not, is `exec` of the decoded word while busy and nothing while idle. -/
theorem engineTurnRunsTheDecodedCommand : Obligations.EngineTurnRunsTheDecodedCommand := by
  unfold Obligations.EngineTurnRunsTheDecodedCommand
  intro s rest
  have hlisted (hb : s.busy = true) : engineTurn (s.withOrder rest) = exec (decodeWord s.pend) (s.withOrder rest) :=
    engineTurn_busy hb
  have hnothing (hb : s.busy = false) : engineTurn (s.withOrder rest) = .next (s.withOrder rest) := engineTurn_idle hb
  exact ⟨fun hb ho => (step_engine ho).trans (hlisted hb), fun hb ho => (step_nil ho).trans (engineTurn_busy hb),
    fun hb ho => (step_engine ho).trans (hnothing hb), fun hb ho => (step_nil ho).trans (engineTurn_idle hb),
    fun t => exec_idle⟩

/-- The accesses that are listed while a command is pending go by, and then it runs. -/
theorem run_accesses_then_exec (es : List PortEvent) (s : State) (ho : s.order = es) (hb : s.busy = true)
    (herr : s.err.toNat ≤ 5) (hes : ∀ e ∈ es, ∃ a, e = .access a ∧ a.admitted = true) :
    ∃ (rs : List ReadReply) (t : State), Host.Core.run core (es.length + 1) s = .next t
      ∧ exec (decodeWord s.pend) { s with order := [], replies := rs } = .next t := by
  induction es generalizing s with
  | nil =>
    obtain ⟨t, ht⟩ := exec_answers (decodeWord s.pend) s
    have hstep : step s = .next t := by rw [step_nil ho, engineTurn_busy hb, ht]
    exact ⟨s.replies, t, run_next hstep, by rw [← ho, ← ht]⟩
  | cons e rest ih =>
    obtain ⟨⟨a, rfl, hadm⟩, hrest⟩ := List.forall_mem_cons.mp hes
    obtain ⟨u, hstep⟩ := step_access_answers ho hadm herr
    have hu := step_access_busy hb ho hstep
    obtain ⟨rs, t, hrun, hexec⟩ := ih u (by rw [hu]) (by rw [hu]; exact hb) (by rw [hu]; exact herr) hrest
    rw [hu] at hexec
    exact ⟨rs, t, (run_next hstep).trans hrun, hexec⟩

/-- Settles O47, by `run_accesses_then_exec`. -/
theorem issuedCommandCompletesAfterAnyAccesses : Obligations.IssuedCommandCompletesAfterAnyAccesses := by
  unfold Obligations.IssuedCommandCompletesAfterAnyAccesses
  intro s hb herr hes
  obtain ⟨rs, t, hrun, hexec⟩ := run_accesses_then_exec s.order s rfl hb herr hes
  exact ⟨rs, t, hrun, hexec, exec_idle hexec⟩

/-- Settles O40: the reset turn's state is `applyReset`, and each component of the reset state is its value of R50. -/
theorem resetRestoresEveryComponent : Obligations.ResetRestoresEveryComponent := by
  unfold Obligations.ResetRestoresEveryComponent
  intro s rest ho
  refine ⟨⟨_, step_cons ho, rfl⟩, rfl, rfl, rfl, rfl, rfl, rfl, rfl, rfl, fun k => ?_, rfl, rfl, rfl, rfl, rfl, rfl⟩
  simp [State.reset]

end Sys2Proof.Machine
end

section
/-! PROOFS. The exact arithmetic of spec/00_scope.md R9 and R10, and the pairing of spec/40_domain_encoder.md R141,
R142. -/

namespace Sys2Proof.Machine

/-! ### The remainder of a difference (R9) -/

/-- Settles O2: `subMod` is the integer remainder (`subMod_cast`), and two numbers below `r` that differ from the same
number by multiples of `r` have one remainder. -/
theorem differenceRemainderIsEuclidean : Obligations.DifferenceRemainderIsEuclidean := by
  unfold Obligations.DifferenceRemainderIsEuclidean
  refine ⟨fun x f r hr => ⟨subMod_lt x f hr, ?_, fun y hy hdvd => ?_⟩, by decide, by decide⟩
  · rw [subMod_cast x f hr]
    exact Int.dvd_self_sub_emod
  · have hcast : (y : Int) = subMod x f r :=
      calc (y : Int) = y % r := (Int.emod_eq_of_lt (by omega) (by omega)).symm
        _ = ((x : Int) - f) % r :=
          (Int.emod_eq_emod_iff_emod_sub_eq_zero.mpr (Int.emod_eq_zero_of_dvd hdvd)).symm
        _ = subMod x f r := (subMod_cast x f hr).symm
    exact_mod_cast hcast

/-! ### ceil_sqrt (R10) -/

theorem ten_ne_mul_self (m : Nat) : m * m ≠ 10 := by
  intro h
  have hm : m ≤ 3 := by nlinarith
  interval_cases m <;> omega

/-- An odd power of ten is no square: its root would be a multiple of `10^k`, and 10 would be a square. -/
theorem odd_pow_ten_ne_mul_self (k q : Nat) : q * q ≠ 10 ^ (2 * k + 1) := by
  intro h
  have hpow : 10 ^ (2 * k + 1) = (10 ^ k) ^ 2 * 10 := by rw [pow_succ, pow_mul']
  have hdvd : 10 ^ k ∣ q := by
    rw [← Nat.pow_dvd_pow_iff (n := 2) (by decide), sq q, h, hpow]
    exact Nat.dvd_mul_right _ _
  obtain ⟨m, rfl⟩ := hdvd
  have hm : (10 ^ k) ^ 2 * (m * m) = (10 ^ k) ^ 2 * 10 := by rw [← hpow, ← h]; ring
  exact ten_ne_mul_self m (Nat.eq_of_mul_eq_mul_left (by positivity) hm)

theorem even_pow_ten (k : Nat) : 10 ^ (2 * k) = 10 ^ k * 10 ^ k := by rw [two_mul, pow_add]

/-- Settles O3: an even power of ten is a square, whose root is exact, and an odd one is not. -/
theorem ceilSqrtIsLeastRoot : Obligations.CeilSqrtIsLeastRoot := by
  unfold Obligations.CeilSqrtIsLeastRoot
  refine ⟨fun n hn => ⟨ceilSqrt_pos hn, le_ceilSqrt_sq n, fun q => ceilSqrt_le⟩, fun k => ?_, fun k => ?_⟩
  · rw [even_pow_ten, ceilSqrt_mul_self]
  · exact lt_of_le_of_ne (le_ceilSqrt_sq _) (odd_pow_ten_ne_mul_self k _).symm

/-! ### Pairs (R141, R142) -/

/-- Settles O50, by the laws of `pair` and `unpair`. -/
theorem pairIsABijection : Obligations.PairIsABijection := fun d =>
  ⟨fun _ _ ha hb => ⟨pair_lt ha hb, unpair_pair hb⟩,
    fun c hc => ⟨unpair_fst_lt hc, unpair_snd_lt d c, pair_unpair d c⟩⟩

/-- Below `10^n`'s weight a digit does not feel a multiple of `10^n`. -/
theorem digit_mul_pow_add_of_lt (a b : Nat) {k n : Nat} (h : k < n) :
    (a * 10 ^ n + b) / 10 ^ k % 10 = b / 10 ^ k % 10 := by
  obtain ⟨m, rfl⟩ := Nat.exists_eq_add_of_lt h
  have hsplit : a * 10 ^ (k + m + 1) + b = b + a * 10 ^ m * 10 * 10 ^ k := by ring
  rw [hsplit, Nat.add_mul_div_right _ _ (by positivity), Nat.add_mul_mod_self_right]

/-- From `10^n`'s weight on, the digits are those of the multiple. -/
theorem div_mul_pow_add_of_le (a : Nat) {b k n : Nat} (hb : b < 10 ^ n) (h : n ≤ k) :
    (a * 10 ^ n + b) / 10 ^ k = a / 10 ^ (k - n) := by
  obtain ⟨m, rfl⟩ := Nat.exists_eq_add_of_le h
  rw [pow_add, ← Nat.div_div_eq_div_mul, Nat.add_comm, Nat.add_mul_div_right _ _ (by positivity),
    Nat.div_eq_of_lt hb, Nat.zero_add, Nat.add_sub_cancel_left]

/-- Settles O51: `pair` is `a * 10^bd + b`, whose digits below and from `bd` on are those of `b` and of `a`. -/
theorem pairConcatenatesDecimalDigits : Obligations.PairConcatenatesDecimalDigits := fun _ a b _ hb =>
  ⟨digit_mul_pow_add_of_lt a b, fun h => congrArg (· % 10) (div_mul_pow_add_of_le a hb h)⟩

end Sys2Proof.Machine
end

section
/-! PROOFS. The cipher (spec/41_feistel_cipher.md): Tinv undoes T (R178, R185), INV undoes FWD with the same walk count
(R182), and a long enough guard never trips (R181). -/

namespace Sys2Proof.Machine

/-! ### T and Tinv (R178, R185) -/

section
variable {rf : RoundFn} {c : CipherContext}

theorem inverseRounds_forwardRounds (n : Nat) {lr : Nat × Nat} (h : HalvesBelow c.r lr) :
    inverseRounds rf c n (forwardRounds rf c n lr) = lr := by
  induction n with
  | zero => rfl
  | succ n ih =>
    obtain ⟨hleft, -⟩ := forwardRounds_below (rf := rf) h n
    rw [forwardRounds, inverseRounds, inverseRound_forwardRound n hleft, ih]

theorem forwardRounds_inverseRounds (n : Nat) {lr : Nat × Nat} (h : HalvesBelow c.r lr) :
    forwardRounds rf c n (inverseRounds rf c n lr) = lr := by
  induction n generalizing lr with
  | zero => rfl
  | succ n ih => rw [inverseRounds, forwardRounds, ih (inverseRound_below h), forwardRound_inverseRound n h.2]

theorem transformTinv_transformT {x : Nat} (h : x < c.r * c.r) : transformTinv rf c (transformT rf c x) = x := by
  have hsplit := split_below h
  obtain ⟨-, hright⟩ := forwardRounds_below (rf := rf) hsplit c.rounds.toNat
  rw [transformTinv, transformT, split_combine hright, inverseRounds_forwardRounds _ hsplit, combine_split]

theorem transformT_transformTinv {x : Nat} (h : x < c.r * c.r) : transformT rf c (transformTinv rf c x) = x := by
  have hsplit := split_below h
  obtain ⟨-, hright⟩ := inverseRounds_below (rf := rf) c.rounds.toNat hsplit
  rw [transformTinv, transformT, split_combine hright, forwardRounds_inverseRounds _ hsplit, combine_split]

end

/-- Settles O55: the rounds undo each other from the innermost outwards, and combine and split between them. -/
theorem transformIsABijectionOfTheSuperset : Obligations.TransformIsABijectionOfTheSuperset := fun _ _ _ hx =>
  ⟨transformT_lt hx, transformTinv_lt hx, transformTinv_transformT hx, transformT_transformTinv hx⟩

/-! ### A walk and the walk back (R182) -/

/-- `t` keeps `[0, m)`, and `u` undoes it there. -/
def UndoneBelow (t u : Nat → Nat) (m : Nat) : Prop := ∀ x, x < m → t x < m ∧ u (t x) = x

theorem transformT_undoneBelow (rf : RoundFn) (c : CipherContext) :
    UndoneBelow (transformT rf c) (transformTinv rf c) (c.r * c.r) :=
  fun _ h => ⟨transformT_lt h, transformTinv_transformT h⟩

theorem transformTinv_undoneBelow (rf : RoundFn) (c : CipherContext) :
    UndoneBelow (transformTinv rf c) (transformT rf c) (c.r * c.r) :=
  fun _ h => ⟨transformTinv_lt h, transformT_transformTinv h⟩

section
variable {t u : Nat → Nat} {m size limit x y k : Nat} (htu : UndoneBelow t u m)
include htu

theorem UndoneBelow.iterate_lt (hx : x < m) (n : Nat) : t^[n] x < m := by
  induction n with
  | zero => exact hx
  | succ n ih => rw [Function.iterate_succ_apply']; exact (htu _ ih).1

/-- `u` takes the iterates of `t` back one by one. -/
theorem UndoneBelow.iterate_back (hx : x < m) (i j : Nat) : u^[j] (t^[i + j] x) = t^[i] x := by
  induction j with
  | zero => rfl
  | succ j ih =>
    rw [Function.iterate_succ_apply, ← Nat.add_assoc, Function.iterate_succ_apply',
      (htu _ (htu.iterate_lt hx _)).2, ih]

/-- The walk back from `y` passes the values of the walk from `x` in the opposite order. All of them lie outside, so it
stops no sooner than at `x`. -/
theorem UndoneBelow.cycleWalk_back (hsize : size ≤ m) (hx : x < size)
    (h : cycleWalk t size limit x 0 = some (y, k)) : cycleWalk u size limit y 0 = some (x, k) := by
  obtain ⟨hk1, hk, rfl, -, hout⟩ := cycleWalk_answers_iff.mp h
  have hxm : x < m := by omega
  refine cycleWalk_answers_iff.mpr ⟨hk1, hk, ?_, hx, fun j hj1 hjk => ?_⟩
  · simpa using (htu.iterate_back hxm 0 k).symm
  · have hback := htu.iterate_back hxm (k - j) j
    rw [Nat.sub_add_cancel (by omega)] at hback
    rw [hback]
    exact hout (k - j) (by omega) (by omega)

/-! ### Guards that never trip (R181) -/

/-- Two equal iterates would make an earlier one the start. -/
theorem UndoneBelow.iterate_sub_of_eq {i j : Nat} (hx : x < m) (hij : i ≤ j) (h : t^[i] x = t^[j] x) :
    t^[j - i] x = x := by
  have hi := htu.iterate_back hx 0 i
  have hj := htu.iterate_back hx (j - i) i
  rw [Nat.zero_add] at hi
  rw [Nat.sub_add_cancel hij] at hj
  rw [← hj, ← h, hi]; rfl

/-- More iterates than there are values outside: two of them would be equal, and so an earlier one the start, which is
inside. -/
theorem UndoneBelow.not_staysOutside (hsize : size ≤ m) (hx : x < size) (hlimit : m - size + 1 ≤ limit) :
    ¬ StaysOutside t size limit x := by
  intro hout
  have hxm : x < m := by omega
  have hdistinct : ∀ i j, i < j → j ≤ limit → t^[i] x ≠ t^[j] x := fun i j hij hj heq => by
    have hstart := htu.iterate_sub_of_eq hxm hij.le heq
    have hoff := hout (j - i) (by omega) (by omega)
    omega
  have hmaps : ∀ j ∈ Finset.Icc 1 limit, t^[j] x ∈ Finset.Ico size m := fun j hj => by
    rw [Finset.mem_Icc] at hj
    exact Finset.mem_Ico.mpr ⟨hout j hj.1 hj.2, htu.iterate_lt hxm j⟩
  obtain ⟨i, hi, j, hj, hne, heq⟩ := Finset.exists_ne_map_eq_of_card_lt_of_maps_to
    (by rw [Nat.card_Icc, Nat.card_Ico]; omega) hmaps
  rw [Finset.mem_Icc] at hi hj
  obtain hlt | hgt := Nat.lt_or_gt_of_ne hne
  · exact hdistinct i j hlt hj.2 heq
  · exact hdistinct j i hgt hi.2 heq.symm

theorem UndoneBelow.cycleWalk_answers (hsize : size ≤ m) (hx : x < size) (hlimit : m - size + 1 ≤ limit) :
    ∃ yk, cycleWalk t size limit x 0 = some yk := by
  rw [← Option.ne_none_iff_exists', ne_eq, cycleWalk_eq_none_iff]
  exact htu.not_staysOutside hsize hx hlimit

end

/-- Settles O57: `UndoneBelow.cycleWalk_back` for T and Tinv, and for Tinv and T. -/
theorem inverseWalkUndoesForwardWalk : Obligations.InverseWalkUndoesForwardWalk := fun p c _ _ _ _ hsize hx hy =>
  ⟨(transformT_undoneBelow p.rf c).cycleWalk_back hsize hx,
    (transformTinv_undoneBelow p.rf c).cycleWalk_back hsize hy⟩

theorem walks_answer_of_long_guard {p : Params} {c : CipherContext} {size x : Nat} (hsize : size ≤ c.r * c.r)
    (hx : x < size) (hlimit : c.r * c.r - size + 1 ≤ p.walkLimit) :
    (∃ yk, fwd p c size x = some yk) ∧ ∃ yk, inv p c size x = some yk :=
  ⟨(transformT_undoneBelow p.rf c).cycleWalk_answers hsize hx hlimit,
    (transformTinv_undoneBelow p.rf c).cycleWalk_answers hsize hx hlimit⟩

/-- The superset of a domain of at most 18 digits has at most `2 * 10^9` values more than the domain. -/
theorem ceilSqrt_sq_sub_le {n : Nat} (h : n ≤ 18) :
    ceilSqrt (10 ^ n) * ceilSqrt (10 ^ n) - 10 ^ n ≤ 2 * 10 ^ 9 := by
  have hroot : ceilSqrt (10 ^ n) ≤ 10 ^ 9 := ceilSqrt_le (by
    rw [← even_pow_ten]; exact Nat.pow_le_pow_right (by decide) h)
  have hpos : 1 ≤ ceilSqrt (10 ^ n) := ceilSqrt_pos (Nat.one_le_pow n 10 (by decide))
  have hless : (ceilSqrt (10 ^ n) - 1) * (ceilSqrt (10 ^ n) - 1) < 10 ^ n := by
    by_contra hle
    have hleast := ceilSqrt_le (Nat.not_lt.mp hle)
    omega
  obtain ⟨q, hq⟩ := Nat.exists_eq_add_of_le' hpos
  rw [hq] at hroot hless ⊢
  have hexp : (q + 1) * (q + 1) = q * q + 2 * q + 1 := by ring
  rw [Nat.add_sub_cancel] at hless
  omega

/-- Settles O58: `walks_answer_of_long_guard`, and `ceilSqrt_sq_sub_le` for the guard `2^32 - 1`. -/
theorem longGuardNeverTrips : Obligations.LongGuardNeverTrips := by
  unfold Obligations.LongGuardNeverTrips
  refine ⟨fun p c size x => walks_answer_of_long_guard, fun p c n x hlimit _ hn hr hx => ?_⟩
  have hgap := ceilSqrt_sq_sub_le hn
  rw [← hr] at hgap
  exact walks_answer_of_long_guard (hr ▸ le_ceilSqrt_sq _) hx (by omega)

end Sys2Proof.Machine
end

section
/-! PROOFS. The commands with their operands in range (spec/40_domain_encoder.md R134 to R136, R143 to R145;
spec/41_feistel_cipher.md R183). -/

namespace Sys2Proof.Machine

/-! ### INSTALL_CIPHER (R134, R145) -/

/-- Settles O13: the staged strings are listed byte by byte, and the key is accepted or it is not. -/
theorem installCipherInstallsStagedContext : Obligations.InstallCipherInstallsStagedContext := by
  unfold Obligations.InstallCipherInstallsStagedContext
  intro rounds s d key tweak hd hsize hkey hkeyMax htweak hkeyBytes htweakBytes
  rw [← stagedBytes_eq_map_range _ hkeyMax] at hkeyBytes
  rw [← stagedBytes_eq_map_range _ htweak] at htweakBytes
  subst hkeyBytes htweakBytes
  split
  · rename_i hok
    exact installCipherWith_installs hd hsize hkey hkeyMax htweak hok
  · rename_i hrejected
    exact installCipherWith_invalidKey hd hsize (.inr (.inr (.inr (Bool.eq_false_of_not_eq_true hrejected))))

/-- A command that leaves the code 0 made its rule's writes. -/
theorem EndsAs.success {p : Params} {i : Instr} {s t : State} (h : EndsAs p i s (.next t)) (herr : t.err = 0) :
    ∃ w, SuccessWrites p i s w ∧ t = w.finish .ok := by
  obtain ⟨e, he, hend⟩ | ⟨w, hw, hend⟩ := h
  · obtain rfl := Host.Outcome.next.inj hend
    exact absurd (errCode_toBits_inj (e' := .ok) herr) he
  · exact ⟨w, hw, Host.Outcome.next.inj hend⟩

/-- Settles O60: neither the checks nor the writes of a successful INSTALL_CIPHER look at the context before it. -/
theorem latestInstallationWins : Obligations.LatestInstallationWins := by
  unfold Obligations.LatestInstallationWins
  intro p rounds s t old h herr
  obtain ⟨w, ⟨d, hd, hsize, hkey, hkeyMax, htweak, hok, rfl⟩, rfl⟩ := (h ▸ installCipher_ends p rounds s).success herr
  exact installCipherWith_installs (s := { s with ctx := old }) hd hsize hkey hkeyMax htweak hok

/-! ### ENCODE and DECODE without a cipher (R135, R136, R144) -/

section
variable {s : State} {d : Domain} (hd : s.dom = some d) (hctx : s.ctx = none)
include hd hctx

theorem encode_plain (ha : s.operandA < d.aSize) (hb : s.operandB < d.bSize) :
    exec .encode s
      = .next (State.finish { s with cOut := BitVec.ofNat 256 (pair d s.operandA s.operandB), cw := 0 } .ok) :=
  encodeWith_completes hd ha hb (by rw [hctx, encipher])

theorem decode_plain (hc : s.operandC < d.size) :
    exec .decode s = .next (State.finish
      { s with
        aOut := BitVec.ofNat 256 (unpair d s.operandC).1
        bOut := BitVec.ofNat 256 (unpair d s.operandC).2
        cw := 0 } .ok) :=
  decodeWith_completes hd hc (by rw [hctx, decipher])

end

/-- C_OUT holds a number of a legal domain as it is. -/
theorem Domain.Legal.pair_register_holds {d : Domain} {a b : Nat} (hl : d.Legal) (ha : a < d.aSize) (hb : b < d.bSize) :
    (BitVec.ofNat 256 (pair d a b)).toNat = pair d a b :=
  (hl.registers_hold params_wf (pair_lt ha hb) (Nat.zero_le _)).1

/-- Settles O15, by `encode_plain`; the pair's number is below `N`, so C_OUT holds it. -/
theorem encodeWithoutCipherPairs : Obligations.EncodeWithoutCipherPairs := by
  unfold Obligations.EncodeWithoutCipherPairs
  intro s d hd hl hctx ha hb
  have ha := Domain.le_aMax.mp ha
  have hb := Domain.le_bMax.mp hb
  have hcOut := hl.pair_register_holds ha hb
  exact ⟨_, encode_plain hd hctx ha hb, rfl, hcOut, hcOut.trans_lt (pair_lt ha hb)⟩

/-- Settles O17, by `decode_plain`; the fields of a number below `N` fit their registers. -/
theorem decodeWithoutCipherUnpairs : Obligations.DecodeWithoutCipherUnpairs := by
  unfold Obligations.DecodeWithoutCipherUnpairs
  intro s d hd hl hctx hc
  obtain ⟨haOut, hbOut, ha, -⟩ := hl.unpair_registers_hold hc
  exact ⟨_, decode_plain hd hctx hc, rfl, haOut, hbOut, ha⟩

theorem pair_max (d : Domain) : pair d d.aMax d.bMax = d.size - 1 := by
  have ha := d.aSize_pos
  have hb := d.bSize_pos
  have hsucc : d.aSize * d.bSize = d.aMax * d.bSize + d.bSize := by
    rw [← Nat.succ_mul, Nat.succ_eq_add_one, Domain.aMax, Nat.sub_add_cancel ha]
  rw [d.size_eq, hsucc, pair, Domain.bMax]
  omega

/-- Settles O22: the greatest pair is in range and its number is `N - 1` (`pair_max`); one more is out of range. -/
theorem encodeAtTheDomainBoundary : Obligations.EncodeAtTheDomainBoundary := by
  unfold Obligations.EncodeAtTheDomainBoundary
  intro s d hd hl hctx
  refine ⟨fun (ha : s.operandA = d.aMax) (hb : s.operandB = d.bMax) => ?_,
    fun ha _ => encodeWith_outOfRange hd (.inl ((Nat.sub_one_lt_of_lt d.aSize_pos).trans_eq ha.symm)),
    fun _ hb => encodeWith_outOfRange hd (.inr ((Nat.sub_one_lt_of_lt d.bSize_pos).trans_eq hb.symm))⟩
  have haSize := Domain.le_aMax.mp ha.le
  have hbSize := Domain.le_bMax.mp hb.le
  refine ⟨_, encode_plain hd hctx haSize hbSize, rfl, (hl.pair_register_holds haSize hbSize).trans ?_⟩
  rw [ha, hb]
  exact pair_max d

/-! ### Even digit sums (R183) -/

theorem ceilSqrt_sq_of_even {n : Nat} (h : n % 2 = 0) : ceilSqrt (10 ^ n) * ceilSqrt (10 ^ n) = 10 ^ n := by
  obtain ⟨k, rfl⟩ := Nat.dvd_of_mod_eq_zero h
  rw [even_pow_ten, ceilSqrt_mul_self]

/-- A walk whose first application lands inside makes no other. -/
theorem cycleWalk_first {t : Nat → Nat} {size limit x : Nat} (hlimit : 1 ≤ limit) (h : t x < size) :
    cycleWalk t size limit x 0 = some (t x, 1) := by
  obtain ⟨left, rfl⟩ := Nat.exists_eq_add_of_le' hlimit
  exact cycleWalk_inside left 0 h

/-- Settles O19: the superset `[0, r*r)` is the domain itself, so the first application lands inside. -/
theorem evenDigitSumNeverWalks : Obligations.EvenDigitSumNeverWalks := by
  unfold Obligations.EvenDigitSumNeverWalks
  intro s d c hd hl heven hctx hr
  have hsuperset : c.r * c.r = d.size := by rw [hr]; exact ceilSqrt_sq_of_even heven
  have hlimit := params_wf.limit_pos
  refine ⟨fun ha hb => ?_, fun hc => ?_⟩
  · have ha := Domain.le_aMax.mp ha
    have hb := Domain.le_bMax.mp hb
    have hinside : transformT Config.params.rf c (pair d s.operandA s.operandB) < d.size :=
      hsuperset ▸ transformT_lt (hsuperset ▸ pair_lt ha hb)
    have hwalk := cycleWalk_first hlimit hinside
    exact ⟨_, encodeWith_completes hd ha hb (by rw [hctx]; exact hwalk), rfl, rfl,
      (hl.registers_hold params_wf hinside hlimit).1⟩
  · have hinside : transformTinv Config.params.rf c s.operandC < d.size :=
      hsuperset ▸ transformTinv_lt (hsuperset ▸ hc)
    have hwalk := cycleWalk_first hlimit hinside
    obtain ⟨haOut, hbOut, -⟩ := hl.unpair_registers_hold hinside
    refine ⟨_, decodeWith_completes hd hc (by rw [hctx]; exact hwalk), rfl, rfl, ?_⟩
    rw [State.finish_aOut, State.finish_bOut, haOut, hbOut]
    exact Nat.div_add_mod' _ _

/-! ### The round trip (R143) -/

/-- With no cipher both steps are the identity; with one, INV undoes FWD and FWD undoes INV. -/
theorem encipher_eq_some_iff {p : Params} {ctx : Option CipherContext} {size x y k : Nat}
    (hctx : ∀ c, ctx = some c → size ≤ c.r * c.r) (hx : x < size) (hy : y < size) :
    encipher p ctx size x = some (y, k) ↔ decipher p ctx size y = some (x, k) := by
  cases ctx with
  | none => simp [encipher, decipher, eq_comm]
  | some c => exact inverseWalkUndoesForwardWalk p c size x y k (hctx c rfl) hx hy

section
variable {p : Params} {s t : State} {d : Domain} (hd : s.dom = some d) (hl : d.Legal)
  (hctx : ∀ c, s.ctx = some c → d.size ≤ c.r * c.r) (herr : t.err = 0)
include hd hl hctx herr

theorem decode_undoes_encode (hp : p.Wf) (h : encodeWith p s = .next t) :
    ∃ u, decodeWith p { t with cIn := t.cOut } = .next u ∧ u.err = 0 ∧ u.aOut = s.aIn ∧ u.bOut = s.bIn
      ∧ u.cw = t.cw := by
  obtain ⟨w, ⟨d', y, k, hd', ha, hb, hwalk, rfl⟩, ht⟩ := (h ▸ encode_ends p s).success herr
  obtain rfl := Option.some.inj (hd.symm.trans hd')
  have hx := pair_lt ha hb
  obtain ⟨hk, hy⟩ := encipher_some hwalk
  have hback := (encipher_eq_some_iff hctx hx (hy hx)).mp hwalk
  obtain ⟨hcOut, -⟩ := hl.registers_hold hp (hy hx) hk
  rw [← hcOut] at hback hy
  have hrun := decodeWith_completes (p := p) (s := { t with cIn := t.cOut }) (d := d)
    (y := pair d s.operandA s.operandB) (k := k)
  rw [ht] at hrun ⊢
  exact ⟨_, hrun hd (hy hx) hback, rfl, by simp [unpair_pair hb], by simp [unpair_pair hb], rfl⟩

theorem encode_undoes_decode (h : decodeWith p s = .next t) :
    ∃ u, encodeWith p { t with aIn := t.aOut, bIn := t.bOut } = .next u ∧ u.err = 0 ∧ u.cOut = s.cIn
      ∧ u.cw = t.cw := by
  obtain ⟨w, ⟨d', y, k, hd', hc, hwalk, rfl⟩, ht⟩ := (h ▸ decode_ends p s).success herr
  obtain rfl := Option.some.inj (hd.symm.trans hd')
  have hy := (decipher_some hwalk).2 hc
  have hback := (encipher_eq_some_iff hctx hy hc).mpr hwalk
  obtain ⟨haOut, hbOut, ha, hb⟩ := hl.unpair_registers_hold hy
  rw [← pair_unpair d y, unpair, ← haOut, ← hbOut] at hback
  have hrun := encodeWith_completes (p := p) (s := { t with aIn := t.aOut, bIn := t.bOut }) (d := d)
    (y := s.operandC) (k := k)
  rw [ht] at hrun ⊢
  exact ⟨_, hrun hd ha hb hback, rfl, by simp, rfl⟩

end

/-- Settles O59: the radix squared is at least `N` (`le_ceilSqrt_sq`), so the walk back finds the operand. -/
theorem decodeUndoesEncode : Obligations.DecodeUndoesEncode := by
  unfold Obligations.DecodeUndoesEncode
  intro p s t d hp hd hl hr
  have hctx : ∀ c, s.ctx = some c → d.size ≤ c.r * c.r := fun c hc => hr c hc ▸ le_ceilSqrt_sq d.size
  exact ⟨fun h herr => decode_undoes_encode hd hl hctx herr hp h,
    fun h herr => encode_undoes_decode hd hl hctx herr h⟩

end Sys2Proof.Machine
end

section
/-! PROOFS. The register port: the map of spec/10_state.md R36, the writes of R43 to R45, and the reads, ignored writes
and refused accesses of spec/20_memory.md section 2. -/

namespace Sys2Proof.Machine

/-! ### The register map (R36) -/

theorem regAt_eq_some_iff (off : Offset) (r : Reg) : regAt off = some r ↔ r.offset = off.toNat := by
  refine ⟨regAt_offset, fun h => ?_⟩
  have hoff : BitVec.ofNat 12 r.offset = off := by rw [h]; simp
  exact hoff ▸ regAt_of_offset r

/-- Settles O27, by `regAt_eq_some_iff` and the ranges of the offsets. -/
theorem registerMapIsOneToOne : Obligations.RegisterMapIsOneToOne :=
  ⟨regAt_eq_some_iff, fun r => (offset_aligned r).symm⟩

/-! ### Writes of an idle block (R43 to R45) -/

theorem withLanes_written (buf : Vector Byte 64) {j : Fin 16} (v : Word) {k : Fin 64} (h : k.val / 4 = j.val) :
    (withLanes buf j v)[k].toNat = v.toNat / 2 ^ (8 * (k.val % 4)) % 256 := by
  rw [withLanes_get, if_pos h, laneOf_toNat]

theorem withLanes_kept (buf : Vector Byte 64) {j : Fin 16} (v : Word) {k : Fin 64} (h : k.val / 4 ≠ j.val) :
    (withLanes buf j v)[k] = buf[k] := by
  rw [withLanes_get, if_neg h]

/-- Settles O31: the buffer's bytes by `withLanes_written` and `withLanes_kept`. -/
theorem keyDataWritesItsBytes : Obligations.KeyDataWritesItsBytes := fun s j v hb =>
  ⟨_, portWrite_idle hb (.keyData j) v, rfl, fun _ => withLanes_written s.keyStage v,
    fun _ => withLanes_kept s.keyStage v, portRead_of_offset _ (.keyData j)⟩

/-- Settles O32: as KEY_DATA's, and the lanes just written make the word again (`lanesAt_withLanes`). -/
theorem tweakDataWritesItsBytes : Obligations.TweakDataWritesItsBytes := fun s j v hb =>
  ⟨_, portWrite_idle hb (.tweakData j) v, rfl, fun _ => withLanes_written s.tweakStage v,
    fun _ => withLanes_kept s.tweakStage v,
    (portRead_of_offset _ (.tweakData j)).trans (lanesAt_withLanes s.tweakStage j v)⟩

theorem withWord_words (x : Wide) (v : Word) (j k : Fin 8) :
    (withWord x j.val v).toNat / 2 ^ (32 * k.val) % 2 ^ 32
      = if k = j then v.toNat else x.toNat / 2 ^ (32 * k.val) % 2 ^ 32 := by
  rw [← wordOf_toNat, wordOf_withWord]
  split
  · rfl
  · exact wordOf_toNat x k.val

/-- Settles O33, by `withWord_words` at each of the three operand registers. -/
theorem operandWordWritesItsBits : Obligations.OperandWordWritesItsBits := fun s j v hb =>
  ⟨⟨_, portWrite_idle hb (.wide .aIn j) v, rfl, withWord_words s.aIn v j⟩,
    ⟨_, portWrite_idle hb (.wide .bIn j) v, rfl, withWord_words s.bIn v j⟩,
    ⟨_, portWrite_idle hb (.wide .cIn j) v, rfl, withWord_words s.cIn v j⟩⟩

/-- A register other than CMD takes the same value twice as once: it stores fixed bits of the value in a fixed place. -/
theorem writeReg_idem {r : Reg} (h : r ≠ .cmd) (v : Word) (s : State) :
    writeReg r v (writeReg r v s) = writeReg r v s := by
  cases r with
  | cmd => exact absurd rfl h
  | keyData j => simp [writeReg, withLanes_idem]
  | tweakData j => simp [writeReg, withLanes_idem]
  | wide x j => cases x <;> simp [writeReg, withWord_idem]
  | _ => rfl

/-- Settles O38: while idle by `writeReg_idem`; a write that the port ignores is ignored again. -/
theorem repeatedWritesAreIdempotent : Obligations.RepeatedWritesAreIdempotent := by
  unfold Obligations.RepeatedWritesAreIdempotent
  intro s off v hoff
  cases hb : s.busy with
  | true => rw [portWrite_busy hb, portWrite_busy hb]
  | false =>
    cases hr : regAt off with
    | none => simp [portWrite, hr]
    | some r =>
      have hcmd : r ≠ .cmd := by
        rintro rfl
        exact hoff (regAt_cmd hr)
      simp [portWrite, hb, hr, writeReg_busy hcmd, writeReg_idem hcmd]

/-! ### Reads (R75) -/

/-- The write-only registers and the reserved offsets, by the ranges of the map. -/
theorem portRead_eq_zero {off : Offset} (s : State)
    (h : off.toNat = 0 ∨ (0x018 ≤ off.toNat ∧ off.toNat < 0x080) ∨ (0x0C0 ≤ off.toNat ∧ off.toNat < 0x100)
      ∨ (0x160 ≤ off.toNat ∧ off.toNat < 0x180) ∨ 0x1E0 ≤ off.toNat) : portRead off s = 0 := by
  cases hr : regAt off with
  | none => simp [portRead, hr]
  | some r =>
    have hread : portRead off s = readReg r s := by simp [portRead, hr]
    rw [hread]
    have hoff := regAt_offset hr
    cases r with
    | cmd => rfl
    | keyData j => rfl
    | wide x j => cases x <;> simp only [Reg.offset, WideReg.base] at hoff <;> omega
    | _ => simp only [Reg.offset] at hoff; omega

/-- A read of STATUS with a reserved code (I17). -/
theorem step_read_fault {s : State} {off : Offset} {rest : List PortEvent}
    (ho : s.order = .access ⟨.read, off, 4, 1⟩ :: rest) (herr : 5 < s.err.toNat) (hoff : off.toNat = 0x004) :
    step s = .fault .reservedErrCode := by
  have hal : off.toNat % 4 = 0 := by omega
  have hadm : (⟨.read, off, 4, 1⟩ : Access).admitted = true := (admitted_iff _).mpr ⟨rfl, rfl, hal⟩
  have hundef : (s.withOrder rest).errDefined = false := decide_eq_false (by simpa using herr)
  rw [step_cons ho]
  simp only [takeTurn, portAccess, hadm, if_true, readAccess]
  rw [if_pos ⟨(regAt_status_iff off).mpr hoff, hundef⟩]

theorem portRead_tweakData_lane (s : State) {j : Fin 16} {k : Fin 64} (h : k.val / 4 = j.val) :
    (portRead (BitVec.ofNat 12 (0x080 + 4 * j.val)) s).toNat / 2 ^ (8 * (k.val % 4)) % 256 = s.tweakStage[k].toNat := by
  have hread : portRead (BitVec.ofNat 12 (0x080 + 4 * j.val)) s = lanesAt s.tweakStage j :=
    portRead_of_offset s (.tweakData j)
  rw [hread, ← laneOf_toNat, laneOf_lanesAt _ _ _ h]

/-- Settles O35: the step by `step_read` and `step_read_fault`, the values register by register. -/
theorem readsHaveNoSideEffect : Obligations.ReadsHaveNoSideEffect := by
  unfold Obligations.ReadsHaveNoSideEffect
  intro s off rest ho hal
  refine ⟨fun hok => step_read hal hok.symm ho, step_read_fault ho, portRead_eq_zero s,
    portRead_of_offset s .cwCount, ?_, ?_, fun j k => portRead_tweakData_lane s⟩
  · rw [portRead_keyLen, lengthWord_toNat]
  · rw [portRead_tweakLen, lengthWord_toNat]

/-- Settles O39: no register shows a staged or an installed key byte. -/
theorem keyBytesAreNotReadable : Obligations.KeyBytesAreNotReadable := by
  unfold Obligations.KeyBytesAreNotReadable
  intro s stage c key off
  refine ⟨portRead_eq fun r _ => ?_, portRead_eq fun r _ => ?_⟩
  all_goals
    cases r with
    | wide x j => cases x <;> rfl
    | _ => rfl

/-! ### Ignored writes and refused accesses (R72, R76) -/

/-- The read-only registers and the reserved offsets, by the ranges of the map. -/
theorem portWrite_ignored {off : Offset} (v : Word) (s : State)
    (h : off.toNat = 0x004 ∨ off.toNat = 0x008 ∨ off.toNat = 0x00C ∨ (0x018 ≤ off.toNat ∧ off.toNat < 0x040)
      ∨ (0x0C0 ≤ off.toNat ∧ off.toNat < 0x100) ∨ 0x160 ≤ off.toNat) : portWrite off v s = s := by
  cases hr : regAt off with
  | none => simp [portWrite, hr]
  | some r =>
    have hoff := regAt_offset hr
    have hreg : writeReg r v s = s := by
      cases r with
      | status => rfl
      | config => rfl
      | cwCount => rfl
      | keyData j => have hj := j.isLt; simp only [Reg.offset] at hoff; omega
      | tweakData j => have hj := j.isLt; simp only [Reg.offset] at hoff; omega
      | wide x j =>
        have hj := j.isLt
        cases x with
        | aOut => rfl
        | bOut => rfl
        | cOut => rfl
        | _ => simp only [Reg.offset, WideReg.base] at hoff; omega
      | _ => simp only [Reg.offset] at hoff; omega
    simp [portWrite, hr, hreg]

/-- Settles O36: the step by `step_write`, and what the port then ignores. -/
theorem writesIgnoredWhereTheRuleSays : Obligations.WritesIgnoredWhereTheRuleSays := by
  unfold Obligations.WritesIgnoredWhereTheRuleSays
  intro s off v rest ho hal
  have hstep := step_write hal ho
  refine ⟨fun hb => ?_, fun _ hignored => ?_, hstep⟩
  · rw [hstep, portWrite_busy (s := s.withOrder rest) hb]; rfl
  · rw [hstep, portWrite_ignored v _ hignored]; rfl

/-- The port refuses the accesses that are not admitted, and no other: a read answers or faults, a write answers. -/
theorem portAccess_refused_iff (a : Access) (s : State) :
    portAccess a s = .refused .accessNotAdmitted ↔ a.admitted = false := by
  cases hadm : a.admitted with
  | false => simp [portAccess, hadm]
  | true =>
    obtain ⟨kind, off, bytes, beats⟩ := a
    cases kind with
    | read => simp only [portAccess, hadm, if_true, readAccess]; split <;> simp
    | write v => simp [portAccess, hadm]

/-- Settles O37, by `portAccess_refused_iff`; an access during reset is refused whatever it is. -/
theorem otherAccessesAreRefused : Obligations.OtherAccessesAreRefused := by
  unfold Obligations.OtherAccessesAreRefused
  intro s a rest
  refine ⟨fun ho => ?_, step_cons⟩
  rw [step_cons ho, takeTurn, portAccess_refused_iff, ← Bool.not_eq_true, admitted_iff]
  tauto

/-! ### What the commands leave as it reads -/

/-- The offsets of the registers that a command's rule writes, STATUS apart (R133 to R138; R40, R46). -/
def WrittenOffset : Instr → Nat → Prop
  | .construct _ _, o => o = 0x008
  | .installCipher _, o => o = 0x008
  | .encode, o => o = 0x00C ∨ (0x1C0 ≤ o ∧ o < 0x1E0)
  | .decode, o => o = 0x00C ∨ (0x180 ≤ o ∧ o < 0x1C0)
  | .maximums, o => 0x180 ≤ o ∧ o < 0x1C0
  | .illegal _, _ => False

theorem wide_offset_range (x : WideReg) (j : Fin 8) :
    x.base ≤ (Reg.wide x j).offset ∧ (Reg.wide x j).offset < x.base + 0x20 := by
  have hj := j.isLt
  simp only [Reg.offset]
  omega

theorem readReg_finish {r : Reg} (hst : r.offset ≠ 0x004) (s : State) (e : ErrCode) :
    readReg r (s.finish e) = readReg r s := by
  cases r with
  | status => exact absurd rfl hst
  | wide x j => cases x <;> rfl
  | _ => rfl

section
variable {r : Reg} (s : State)

theorem readReg_setup (hst : r.offset ≠ 0x004) (hr : r.offset ≠ 0x008) (dom : Option Domain)
    (ctx : Option CipherContext) : readReg r { s with dom := dom, ctx := ctx } = readReg r s := by
  cases r with
  | status => exact absurd rfl hst
  | config => exact absurd rfl hr
  | wide x j => cases x <;> rfl
  | _ => rfl

theorem readReg_cw (hr : r.offset ≠ 0x00C) (cw : Word) : readReg r { s with cw := cw } = readReg r s := by
  cases r with
  | cwCount => exact absurd rfl hr
  | wide x j => cases x <;> rfl
  | _ => rfl

theorem readReg_cOut (hr : ¬ (0x1C0 ≤ r.offset ∧ r.offset < 0x1E0)) (c : Wide) :
    readReg r { s with cOut := c } = readReg r s := by
  cases r with
  | wide x j =>
    cases x with
    | cOut => exact absurd (wide_offset_range .cOut j) hr
    | _ => rfl
  | _ => rfl

theorem readReg_pairOut (hr : ¬ (0x180 ≤ r.offset ∧ r.offset < 0x1C0)) (a b : Wide) :
    readReg r { s with aOut := a, bOut := b } = readReg r s := by
  cases r with
  | wide x j =>
    have hrange := wide_offset_range x j
    cases x with
    | aOut => simp only [WideReg.base] at hrange; omega
    | bOut => simp only [WideReg.base] at hrange; omega
    | _ => rfl
  | _ => rfl

end

theorem SuccessWrites.readReg {p : Params} {i : Instr} {s w : State} {r : Reg} (h : SuccessWrites p i s w)
    (hst : r.offset ≠ 0x004) (hr : ¬ WrittenOffset i r.offset) : readReg r w = readReg r s := by
  cases i with
  | construct ad bd =>
    obtain ⟨-, rfl⟩ := h
    exact readReg_setup s hst hr _ _
  | installCipher rounds =>
    obtain ⟨d, -, -, -, -, -, -, rfl⟩ := h
    exact readReg_setup s hst hr s.dom _
  | encode =>
    obtain ⟨d, c, k, -, -, -, -, rfl⟩ := h
    obtain ⟨hcw, hout⟩ := not_or.mp hr
    exact (readReg_cw { s with cOut := BitVec.ofNat 256 c } hcw _).trans (readReg_cOut s hout _)
  | decode =>
    obtain ⟨d, c, k, -, -, -, rfl⟩ := h
    obtain ⟨hcw, hout⟩ := not_or.mp hr
    have hpair := readReg_pairOut s hout (BitVec.ofNat 256 (unpair d c).1) (BitVec.ofNat 256 (unpair d c).2)
    exact (readReg_cw _ hcw (BitVec.ofNat 32 k)).trans hpair
  | maximums =>
    obtain ⟨d, -, rfl⟩ := h
    exact readReg_pairOut s hr _ _
  | illegal w => exact h.elim

theorem exec_portRead {i : Instr} {s t : State} {off : Offset} (h : exec i s = .next t) (hst : off.toNat ≠ 0x004)
    (hr : ¬ WrittenOffset i off.toNat) : portRead off t = portRead off s := by
  refine portRead_eq fun r hreg => ?_
  rw [← regAt_offset hreg] at hst hr
  obtain ⟨e, -, rfl⟩ | ⟨w, hw, rfl⟩ := exec_next h
  · exact readReg_finish hst s e
  · exact (readReg_finish hst w .ok).trans (hw.readReg hst hr)

/-- Settles O26: `exec_portRead` at each command's own registers. -/
theorem commandsChangeOnlyTheirRegisters : Obligations.CommandsChangeOnlyTheirRegisters := by
  unfold Obligations.CommandsChangeOnlyTheirRegisters
  intro i s t h off hst
  cases i with
  | construct ad bd => exact exec_portRead h hst
  | installCipher rounds => exact exec_portRead h hst
  | encode => exact fun hcw hout => exec_portRead h hst (not_or.mpr ⟨hcw, hout⟩)
  | decode => exact fun hcw hout => exec_portRead h hst (not_or.mpr ⟨hcw, hout⟩)
  | maximums => exact exec_portRead h hst
  | illegal w => exact exec_portRead h hst id

end Sys2Proof.Machine
end

section
/-! PROOFS. The host's programs of spec/30_encoding.md R110: `wrw`, `rdw`, `setkey` and `settweak`. -/

namespace Sys2Proof.Machine

/-! ### Writes into one component -/

/-- A component of the state: how it is read and replaced, and that a replacement is all it does. -/
structure Component (α : Type) where
  get : State → α
  put : State → α → State
  get_put : ∀ s a, get (put s a) = a
  put_put : ∀ s a b, put (put s a) b = put s b
  put_get : ∀ s, put s (get s) = s

/-- Writes of registers that all update one component, one after another, are one replacement of it. -/
theorem afterWrites_component {α β : Type} (x : Component α) (reg : β → Reg) (upd : α → β → Word → α)
    (hwrite : ∀ s j v, writeReg (reg j) v s = x.put s (upd (x.get s) j v)) (ws : List (β × Word)) (s : State) :
    afterWrites (ws.map fun w => (reg w.1, w.2)) s
      = x.put s (ws.foldl (fun a w => upd a w.1 w.2) (x.get s)) := by
  induction ws generalizing s with
  | nil => exact (x.put_get s).symm
  | cons w ws ih => rw [List.map_cons, afterWrites, ih, hwrite, x.get_put, x.put_put, List.foldl_cons]

theorem ne_cmd_of_mem_map {β : Type} {reg : β → Reg} (h : ∀ j, reg j ≠ .cmd) (ws : List (β × Word)) :
    ∀ w ∈ ws.map (fun w => (reg w.1, w.2)), w.1 ≠ .cmd :=
  List.forall_mem_map.mpr fun w _ => h w.1

/-! The components that the host programs write, each with its three laws by the record's own. -/

def Component.aIn : Component Wide :=
  ⟨State.aIn, fun s v => { s with aIn := v }, fun _ _ => rfl, fun _ _ _ => rfl, fun _ => rfl⟩

def Component.bIn : Component Wide :=
  ⟨State.bIn, fun s v => { s with bIn := v }, fun _ _ => rfl, fun _ _ _ => rfl, fun _ => rfl⟩

def Component.cIn : Component Wide :=
  ⟨State.cIn, fun s v => { s with cIn := v }, fun _ _ => rfl, fun _ _ _ => rfl, fun _ => rfl⟩

def Component.keyStage : Component (Vector Byte 64) :=
  ⟨State.keyStage, fun s b => { s with keyStage := b }, fun _ _ => rfl, fun _ _ _ => rfl, fun _ => rfl⟩

def Component.tweakStage : Component (Vector Byte 64) :=
  ⟨State.tweakStage, fun s b => { s with tweakStage := b }, fun _ _ => rfl, fun _ _ _ => rfl, fun _ => rfl⟩

/-! ### wrw (R110) -/

/-- The words of a wide value, with their indices. -/
def wideWords (v : Wide) : List (Fin 8 × Word) := (List.finRange 8).map fun j => (j, wordOf v j.val)

/-- A wide register after the listed words are written. -/
def loadWords (x : Wide) (ws : List (Fin 8 × Word)) : Wide := ws.foldl (fun y w => withWord y w.1.val w.2) x

/-- A word that was written from `v`, at whatever turn, is `v`'s; the others are as they were. -/
theorem wordOf_loadWords (v : Wide) (js : List (Fin 8)) (x : Wide) (k : Fin 8) :
    wordOf (loadWords x (js.map fun j => (j, wordOf v j.val))) k.val
      = if k ∈ js then wordOf v k.val else wordOf x k.val := by
  induction js generalizing x with
  | nil => rfl
  | cons j js ih =>
    rw [List.map_cons, loadWords, List.foldl_cons, ← loadWords, ih, wordOf_withWord]
    by_cases hk : k ∈ js
    · simp [hk]
    · by_cases hj : k = j
      · simp [hj]
      · simp [hk, hj]

theorem loadWords_wideWords (x v : Wide) : loadWords x (wideWords v) = v :=
  wide_ext fun k => by rw [wideWords, wordOf_loadWords, if_pos (List.mem_finRange k)]

theorem wrw_eq_writeTurns (x : WideReg) (v : Wide) :
    wrw x v = writeTurns ((wideWords v).map fun w => (.wide x w.1, w.2)) := rfl

/-- The eight writes of `wrw` replace the component that the operand register shows. -/
theorem run_wrw {s : State} (hb : s.busy = false) (x : WideReg) (y : Component Wide)
    (hwrite : ∀ s (j : Fin 8) v, writeReg (.wide x j) v s = y.put s (withWord (y.get s) j.val v)) (v : Wide)
    (rest : List PortEvent) :
    Host.Core.run core 8 (s.withOrder (wrw x v ++ rest)) = .next ((y.put s v).withOrder rest) := by
  have hafter := afterWrites_component y (.wide x) (fun a j => withWord a j.val) hwrite (wideWords v) s
  have hload : (wideWords v).foldl (fun a w => withWord a w.1.val w.2) (y.get s) = v :=
    loadWords_wideWords (y.get s) v
  rw [hload] at hafter
  have hrun := run_writes ((wideWords v).map fun w => (Reg.wide x w.1, w.2)) s rest hb
    (ne_cmd_of_mem_map (by simp) (wideWords v))
  rw [hafter] at hrun
  exact hrun

/-! ### rdw (R110) -/

theorem rdw_eq_readTurns (x : WideReg) : rdw x = readTurns ((List.finRange 8).map (.wide x)) := rfl

theorem valueOfWords_wordOf (x : Wide) : valueOfWords ((List.finRange 8).map fun j => wordOf x j.val) = x.toNat := by
  have hx := x.isLt
  have hwords : (List.finRange 8).map (fun j => wordOf x j.val)
      = [wordOf x 0, wordOf x 1, wordOf x 2, wordOf x 3, wordOf x 4, wordOf x 5, wordOf x 6, wordOf x 7] := rfl
  rw [hwords]
  simp only [valueOfWords, wordOf_toNat]
  omega

theorem run_rdw (s : State) (x : WideReg) (rest : List PortEvent) :
    ∃ t, Host.Core.run core 8 (s.withOrder (rdw x ++ rest)) = .next t
      ∧ t = { s with order := rest, replies := t.replies }
      ∧ valueOfWords ((t.replies.take 8).reverse.map (·.value)) = (s.getWide x).toNat := by
  have hrun := run_reads ((List.finRange 8).map (.wide x)) s rest (by simp)
  refine ⟨_, hrun, rfl, ?_⟩
  rw [← valueOfWords_wordOf]
  rfl

/-- Settles O48: `run_wrw` at the three operand registers, and `run_rdw`. -/
theorem wrwAndRdwCarryWholeValues : Obligations.WrwAndRdwCarryWholeValues := fun s v rest hb =>
  ⟨run_wrw hb .aIn .aIn (fun _ _ _ => rfl) v rest, run_wrw hb .bIn .bIn (fun _ _ _ => rfl) v rest,
    run_wrw hb .cIn .cIn (fun _ _ _ => rfl) v rest, fun x => run_rdw s x rest⟩

/-! ### setkey and settweak (R110) -/

/-- The words of a byte string, with their indices in a buffer of 16 words. -/
def stringWords (bytes : List Byte) (n : Nat) : List (Fin 16 × Word) :=
  (List.range n).map fun j => (index16 j, stringWord bytes j)

/-- A staging buffer after the listed words are written. -/
def stageWords (buf : Vector Byte 64) (ws : List (Fin 16 × Word)) : Vector Byte 64 :=
  ws.foldl (fun b w => withLanes b w.1 w.2) buf

theorem index16_val {j : Nat} (h : j < 16) : (index16 j).val = j := Nat.mod_eq_of_lt h

theorem laneOf_stringWord (bytes : List Byte) (j : Nat) {m : Nat} (hm : m < 4) :
    laneOf (stringWord bytes j) m = bytes.getD (4 * j + m) 0 := by
  obtain ⟨h0, h1, h2, h3⟩ := laneOf_wordOfLanes (bytes.getD (4 * j) 0) (bytes.getD (4 * j + 1) 0)
    (bytes.getD (4 * j + 2) 0) (bytes.getD (4 * j + 3) 0)
  interval_cases m
  · exact h0
  · exact h1
  · exact h2
  · exact h3

theorem stringWords_succ (bytes : List Byte) (n : Nat) :
    stringWords bytes (n + 1) = stringWords bytes n ++ [(index16 n, stringWord bytes n)] := by
  simp [stringWords, List.range_succ]

theorem stageWords_concat (buf : Vector Byte 64) (ws : List (Fin 16 × Word)) (w : Fin 16 × Word) :
    stageWords buf (ws ++ [w]) = withLanes (stageWords buf ws) w.1 w.2 := List.foldl_concat ..

/-- The first `n` words hold the string's bytes, and 0 after its end; the rest of the buffer is as it was. -/
theorem stageWords_stringWords (bytes : List Byte) (buf : Vector Byte 64) {n : Nat} (hn : n ≤ 16) (k : Fin 64) :
    (stageWords buf (stringWords bytes n))[k] = if k.val / 4 < n then bytes.getD k.val 0 else buf[k] := by
  induction n with
  | zero => rfl
  | succ n ih =>
    rw [stringWords_succ, stageWords_concat, withLanes_get, index16_val (by omega), ih (by omega)]
    by_cases hk : k.val / 4 = n
    · rw [if_pos hk, if_pos (by omega), ← hk, laneOf_stringWord _ _ (Nat.mod_lt _ (by decide)), Nat.div_add_mod]
    · rw [if_neg hk]
      exact if_congr (by omega) rfl rfl

theorem stagedBytes_stageWords {bytes : List Byte} {len : Nat} (hlen : bytes.length ≤ 64) (h : len = bytes.length)
    (buf : Vector Byte 64) : stagedBytes (stageWords buf (stringWords bytes ((bytes.length + 3) / 4))) len = bytes := by
  subst h
  apply List.ext_getElem
  · exact stagedBytes_length _ hlen
  · intro k _ hk
    have hbyte := stageWords_stringWords bytes buf (n := (bytes.length + 3) / 4) (by omega) ⟨k, by omega⟩
    rw [if_pos (by simp only; omega)] at hbyte
    simpa [hk] using hbyte

/-- The registers of a byte string's program: its length, then its words. -/
def stringWrites (len : Reg) (data : Fin 16 → Reg) (bytes : List Byte) : List (Reg × Word) :=
  (len, BitVec.ofNat 32 bytes.length)
    :: (stringWords bytes ((bytes.length + 3) / 4)).map fun w => (data w.1, w.2)

theorem writeTurns_stringWrites (len : Reg) {data : Fin 16 → Reg} {base : Nat}
    (hdata : ∀ j, (data j).offset = base + 4 * j.val) {bytes : List Byte} (hlen : bytes.length ≤ 64) :
    writeTurns (stringWrites len data bytes)
      = wr len.offset (BitVec.ofNat 32 bytes.length) :: writeString base bytes := by
  rw [stringWrites, writeTurns, List.map_cons, List.map_map, stringWords, List.map_map, writeString]
  congr 1
  refine List.map_congr_left fun j hj => ?_
  have hj : j < 16 := by rw [List.mem_range] at hj; omega
  simp only [Function.comp_apply, hdata, index16_val hj]

theorem setkey_eq_writeTurns {bytes : List Byte} (hlen : bytes.length ≤ 64) :
    setkey bytes = writeTurns (stringWrites .keyLen .keyData bytes) :=
  (writeTurns_stringWrites .keyLen (data := .keyData) (base := 0x040) (fun _ => rfl) hlen).symm

theorem settweak_eq_writeTurns {bytes : List Byte} (hlen : bytes.length ≤ 64) :
    settweak bytes = writeTurns (stringWrites .tweakLen .tweakData bytes) :=
  (writeTurns_stringWrites .tweakLen (data := .tweakData) (base := 0x080) (fun _ => rfl) hlen).symm

/-- A byte string's program stores its length and replaces the buffer that its data registers write. -/
theorem run_stringWrites {s : State} (hb : s.busy = false) {len : Reg} {data : Fin 16 → Reg} (hcmd : len ≠ .cmd)
    (hcmds : ∀ j, data j ≠ .cmd) (x : Component (Vector Byte 64))
    (hwrite : ∀ s j v, writeReg (data j) v s = x.put s (withLanes (x.get s) j v)) (bytes : List Byte)
    (rest : List PortEvent) :
    Host.Core.run core (writeTurns (stringWrites len data bytes)).length
        (s.withOrder (writeTurns (stringWrites len data bytes) ++ rest))
      = .next ((x.put (writeReg len (BitVec.ofNat 32 bytes.length) s)
          (stageWords (x.get (writeReg len (BitVec.ofNat 32 bytes.length) s))
            (stringWords bytes ((bytes.length + 3) / 4)))).withOrder rest) := by
  have hrun := run_writes (stringWrites len data bytes) s rest hb
    (List.forall_mem_cons.mpr ⟨hcmd, ne_cmd_of_mem_map hcmds _⟩)
  rw [stringWrites, afterWrites, afterWrites_component x data withLanes hwrite, ← stringWrites] at hrun
  rwa [writeTurns, List.length_map]

theorem lengthField_ofNat {n : Nat} (h : n ≤ 64) : (lengthField (BitVec.ofNat 32 n)).toNat = n := by
  rw [lengthField_toNat, BitVec.toNat_ofNat]
  omega

/-- Settles O49: `run_stringWrites` at the two buffers, whose first bytes are then the string's
(`stagedBytes_stageWords`). -/
theorem setkeyAndSettweakStageTheirBytes : Obligations.SetkeyAndSettweakStageTheirBytes := by
  unfold Obligations.SetkeyAndSettweakStageTheirBytes
  intro s bytes rest hb hbytes
  have hlen := lengthField_ofNat hbytes
  rw [setkey_eq_writeTurns hbytes, settweak_eq_writeTurns hbytes]
  exact ⟨⟨_, run_stringWrites hb (by simp) (by simp) .keyStage (fun _ _ _ => rfl) bytes rest, rfl, hlen,
      stagedBytes_stageWords hbytes hlen s.keyStage⟩,
    ⟨_, run_stringWrites hb (by simp) (by simp) .tweakStage (fun _ _ _ => rfl) bytes rest, rfl, hlen,
      stagedBytes_stageWords hbytes hlen s.tweakStage⟩⟩

end Sys2Proof.Machine
end
